-- ==== Sys2Proof/Word.lean ====
section
/-! DEFINITION. The word types of the block: 8-bit cells and registers, 16-bit opcodes and addresses, the
immediates of the encoding and the selector of the sixteen general registers. -/
namespace Sys2Proof

/-- One memory cell or general register (00_scope.md R8, R16). -/
abbrev Byte := BitVec 8

/-- A 16-bit value: an opcode, `I`, `pc` or a stack entry (00_scope.md R8, R16). -/
abbrev Word := BitVec 16

/-- The 4-bit field `n` (30_encoding.md R54). -/
abbrev Nibble := BitVec 4

/-- The 12-bit field `nnn` (30_encoding.md R54). -/
abbrev Addr12 := BitVec 12

/-- The number of one of the sixteen general registers V0..VF: a 4-bit selector always names one of them
(10_state.md R21, 40_dispatcher.md R74). -/
abbrev RegIdx := Fin 16

end Sys2Proof
end

