-- ==== Sys2Proof/Syntax.lean ====
section
/-! DEFINITION. The instructions: one constructor per row of spec/opcode_table.json (30_encoding.md R58 to R62),
named after the row's mnemonic, with the operand fields the row gives. The `NI` constructors are the rows the spec
marks not implemented; they keep their fields, since the NotImplemented event carries the whole opcode. -/
namespace Sys2Proof

inductive Instr where
  /-- 00E0, R75. -/
  | cls
  /-- 00EE, R76. -/
  | ret
  /-- 0nnn other than 00E0 and 00EE, not implemented, R77. -/
  | sys (nnn : Addr12)
  /-- 1nnn, R78. -/
  | jp (nnn : Addr12)
  /-- 2nnn, R79. -/
  | call (nnn : Addr12)
  /-- 3xnn, R80. -/
  | seImm (x : RegIdx) (nn : Byte)
  /-- 4xnn, R81. -/
  | sneImm (x : RegIdx) (nn : Byte)
  /-- 5xyn for every n, R82 (the row gives n no operand: R63). -/
  | seReg (x y : RegIdx)
  /-- 6xnn, R83. -/
  | ldImm (x : RegIdx) (nn : Byte)
  /-- 7xnn, R84. -/
  | addImm (x : RegIdx) (nn : Byte)
  /-- 8xy0, R85. -/
  | ldReg (x y : RegIdx)
  /-- 8xy1, R86. -/
  | orReg (x y : RegIdx)
  /-- 8xy2, R87. -/
  | andReg (x y : RegIdx)
  /-- 8xy3, R88. -/
  | xorReg (x y : RegIdx)
  /-- 8xy4, not implemented, R89. -/
  | addRegNI (x y : RegIdx)
  /-- 8xyn with n = 5..F, not implemented, R90. -/
  | aluOtherNI (x y : RegIdx) (n : Nibble)
  /-- 9xyn, not implemented, R91. -/
  | sneRegNI (x y : RegIdx) (n : Nibble)
  /-- Annn, R92. -/
  | ldI (nnn : Addr12)
  /-- Bnnn, R93. -/
  | jpV0 (nnn : Addr12)
  /-- Cxnn, R94. -/
  | rnd (x : RegIdx) (nn : Byte)
  /-- Dxyn, not implemented, R95. -/
  | drwNI (x y : RegIdx) (n : Nibble)
  /-- Exnn, not implemented, R96. -/
  | keyNI (x : RegIdx) (nn : Byte)
  /-- Fx07, R97. -/
  | ldVxDT (x : RegIdx)
  /-- Fx0A, not implemented, R98. -/
  | keyWaitNI (x : RegIdx)
  /-- Fx15, R99. -/
  | ldDT (x : RegIdx)
  /-- Fx18, R100. -/
  | ldST (x : RegIdx)
  /-- Fx1E, R101. -/
  | addI (x : RegIdx)
  /-- Fx29, not implemented, R102. -/
  | glyphNI (x : RegIdx)
  /-- Fx33, not implemented, R103. -/
  | bcdNI (x : RegIdx)
  /-- Fx55, R104. -/
  | storeBlock (x : RegIdx)
  /-- Fx65, R105. -/
  | loadBlock (x : RegIdx)
  /-- Fxnn with any other nn, not implemented, R106. -/
  | fOtherNI (x : RegIdx) (nn : Byte)
  deriving DecidableEq, Repr

end Sys2Proof
end

