-- ==== Sys2Proof/WellFormed.lean ====
section
/-! DEFINITION. The syntax checks: which terms of `Instr` are instructions of the table. Only the three catch-all
rows ("0x0, any other", "0x8, other n", "0xF, other nn") exclude values, those that a row of lower priority takes
(30_encoding.md R62, R65). -/
namespace Sys2Proof

/-- The words of family 0 that are CLS and RET, as their low 12 bits (30_encoding.md R58). -/
def isNamedZeroWord (nnn : Addr12) : Bool := nnn == 0x0E0#12 || nnn == 0x0EE#12

/-- The modes n of family 8 with a row of their own (30_encoding.md R59). -/
def isNamedAluMode (n : Nibble) : Bool :=
  n == 0x0#4 || n == 0x1#4 || n == 0x2#4 || n == 0x3#4 || n == 0x4#4

/-- The modes nn of family F with a row of their own (30_encoding.md R60). -/
def isNamedFMode (nn : Byte) : Bool :=
  nn == 0x07#8 || nn == 0x0A#8 || nn == 0x15#8 || nn == 0x18#8 || nn == 0x1E#8 || nn == 0x29#8 ||
    nn == 0x33#8 || nn == 0x55#8 || nn == 0x65#8

def Instr.wellFormed : Instr → Bool
  | .cls => true
  | .ret => true
  | .sys nnn => !isNamedZeroWord nnn
  | .jp _ => true
  | .call _ => true
  | .seImm _ _ => true
  | .sneImm _ _ => true
  | .seReg _ _ => true
  | .ldImm _ _ => true
  | .addImm _ _ => true
  | .ldReg _ _ => true
  | .orReg _ _ => true
  | .andReg _ _ => true
  | .xorReg _ _ => true
  | .addRegNI _ _ => true
  | .aluOtherNI _ _ n => !isNamedAluMode n
  | .sneRegNI _ _ _ => true
  | .ldI _ => true
  | .jpV0 _ => true
  | .rnd _ _ => true
  | .drwNI _ _ _ => true
  | .keyNI _ _ => true
  | .ldVxDT _ => true
  | .keyWaitNI _ => true
  | .ldDT _ => true
  | .ldST _ => true
  | .addI _ => true
  | .glyphNI _ => true
  | .bcdNI _ => true
  | .storeBlock _ => true
  | .loadBlock _ => true
  | .fOtherNI _ nn => !isNamedFMode nn

end Sys2Proof
end

