-- ==== Sys2Proof/Decode.lean ====
section
/-! DEFINITION. The opcode decoder (30_encoding.md R53 to R65), total on every 16-bit word and on every list of
bytes; after it the encoder, and the opcode table of R65 as data. -/
namespace Sys2Proof

/-! ### Fields (R54, R55) -/

def familyField (op : Word) : Nibble := op.extractLsb' 12 4

/-- A 4-bit selector as the register it names (R21). -/
def regOfBits (b : Nibble) : RegIdx := ⟨b.toNat, b.isLt⟩

def xField (op : Word) : RegIdx := regOfBits (op.extractLsb' 8 4)

def yField (op : Word) : RegIdx := regOfBits (op.extractLsb' 4 4)

def nField (op : Word) : Nibble := op.extractLsb' 0 4

def nnField (op : Word) : Byte := op.extractLsb' 0 8

def nnnField (op : Word) : Addr12 := op.extractLsb' 0 12

/-! ### The two-level dispatch map (R58 to R60, 40_dispatcher.md R68) -/

/-- Family 0 compares the whole word (R58). -/
def decodeZero (op : Word) : Instr :=
  if op = 0x00E0#16 then .cls
  else if op = 0x00EE#16 then .ret
  else .sys (nnnField op)

/-- Family 8 selects on n (R59). -/
def decodeAlu (op : Word) : Instr :=
  match nField op with
  | 0x0#4 => .ldReg (xField op) (yField op)
  | 0x1#4 => .orReg (xField op) (yField op)
  | 0x2#4 => .andReg (xField op) (yField op)
  | 0x3#4 => .xorReg (xField op) (yField op)
  | 0x4#4 => .addRegNI (xField op) (yField op)
  | n => .aluOtherNI (xField op) (yField op) n

/-- Family F selects on nn (R60). -/
def decodeMisc (op : Word) : Instr :=
  match nnField op with
  | 0x07#8 => .ldVxDT (xField op)
  | 0x0A#8 => .keyWaitNI (xField op)
  | 0x15#8 => .ldDT (xField op)
  | 0x18#8 => .ldST (xField op)
  | 0x1E#8 => .addI (xField op)
  | 0x29#8 => .glyphNI (xField op)
  | 0x33#8 => .bcdNI (xField op)
  | 0x55#8 => .storeBlock (xField op)
  | 0x65#8 => .loadBlock (xField op)
  | nn => .fOtherNI (xField op) nn

/-- The decoder: a total function of the opcode alone (R56, R64). The last arm is family F. -/
def decodeWord (op : Word) : Instr :=
  match familyField op with
  | 0x0#4 => decodeZero op
  | 0x1#4 => .jp (nnnField op)
  | 0x2#4 => .call (nnnField op)
  | 0x3#4 => .seImm (xField op) (nnField op)
  | 0x4#4 => .sneImm (xField op) (nnField op)
  | 0x5#4 => .seReg (xField op) (yField op)
  | 0x6#4 => .ldImm (xField op) (nnField op)
  | 0x7#4 => .addImm (xField op) (nnField op)
  | 0x8#4 => decodeAlu op
  | 0x9#4 => .sneRegNI (xField op) (yField op) (nField op)
  | 0xA#4 => .ldI (nnnField op)
  | 0xB#4 => .jpV0 (nnnField op)
  | 0xC#4 => .rnd (xField op) (nnField op)
  | 0xD#4 => .drwNI (xField op) (yField op) (nField op)
  | 0xE#4 => .keyNI (xField op) (nnField op)
  | _ => decodeMisc op

/-- Two bytes as they lie in memory, the high byte at the lower address (20_memory.md R41). -/
def wordOfBytes (hi lo : Byte) : Word := hi ++ lo

/-- Why a list of bytes holds no instruction. Every word decodes (R56), so too few bytes is the one reason. -/
inductive DecodeError where
  /-- Fewer than the two bytes of an instruction (R53). -/
  | truncated
  deriving DecidableEq, Repr

/-- Decoding from bytes: the instruction and the bytes after it. -/
def decodeBytes : List Byte → Except DecodeError (Instr × List Byte)
  | hi :: lo :: rest => .ok (decodeWord (wordOfBytes hi lo), rest)
  | _ => .error .truncated

/-- The host's word of `nbits` bits (bits above `nbits` zero), laid out as the hardware stores it and given to the
decoder. No instruction is longer than 16 bits. -/
def decodeTableWord (nbits w : Nat) : Option Instr :=
  if 16 < nbits then none
  else
    let op := BitVec.ofNat 16 (w % 2 ^ nbits)
    match decodeBytes [op.extractLsb' 8 8, op.extractLsb' 0 8] with
    | .ok (i, _) => some i
    | .error _ => none

/-! ### The encoder, from the same tables (R54, R58 to R60) -/

def regBits (r : RegIdx) : Nibble := BitVec.ofNat 4 r.val

/-- Formats `NNN` (R54). -/
def wordNNN (f : Nibble) (nnn : Addr12) : Word := f ++ nnn

/-- Formats `XNN` and `XF` (R54). -/
def wordXNN (f : Nibble) (x : RegIdx) (nn : Byte) : Word := f ++ (regBits x ++ nn : Addr12)

/-- Format `XYN` (R54). -/
def wordXYN (f : Nibble) (x y : RegIdx) (n : Nibble) : Word :=
  f ++ (regBits x ++ (regBits y ++ n : Byte) : Addr12)

/-- The opcode of an instruction. `seReg` is assembled with n = 0 (R66). -/
def encode : Instr → Word
  | .cls => 0x00E0#16
  | .ret => 0x00EE#16
  | .sys nnn => wordNNN 0x0#4 nnn
  | .jp nnn => wordNNN 0x1#4 nnn
  | .call nnn => wordNNN 0x2#4 nnn
  | .seImm x nn => wordXNN 0x3#4 x nn
  | .sneImm x nn => wordXNN 0x4#4 x nn
  | .seReg x y => wordXYN 0x5#4 x y 0x0#4
  | .ldImm x nn => wordXNN 0x6#4 x nn
  | .addImm x nn => wordXNN 0x7#4 x nn
  | .ldReg x y => wordXYN 0x8#4 x y 0x0#4
  | .orReg x y => wordXYN 0x8#4 x y 0x1#4
  | .andReg x y => wordXYN 0x8#4 x y 0x2#4
  | .xorReg x y => wordXYN 0x8#4 x y 0x3#4
  | .addRegNI x y => wordXYN 0x8#4 x y 0x4#4
  | .aluOtherNI x y n => wordXYN 0x8#4 x y n
  | .sneRegNI x y n => wordXYN 0x9#4 x y n
  | .ldI nnn => wordNNN 0xA#4 nnn
  | .jpV0 nnn => wordNNN 0xB#4 nnn
  | .rnd x nn => wordXNN 0xC#4 x nn
  | .drwNI x y n => wordXYN 0xD#4 x y n
  | .keyNI x nn => wordXNN 0xE#4 x nn
  | .ldVxDT x => wordXNN 0xF#4 x 0x07#8
  | .keyWaitNI x => wordXNN 0xF#4 x 0x0A#8
  | .ldDT x => wordXNN 0xF#4 x 0x15#8
  | .ldST x => wordXNN 0xF#4 x 0x18#8
  | .addI x => wordXNN 0xF#4 x 0x1E#8
  | .glyphNI x => wordXNN 0xF#4 x 0x29#8
  | .bcdNI x => wordXNN 0xF#4 x 0x33#8
  | .storeBlock x => wordXNN 0xF#4 x 0x55#8
  | .loadBlock x => wordXNN 0xF#4 x 0x65#8
  | .fOtherNI x nn => wordXNN 0xF#4 x nn

/-- The two bytes of an instruction as they lie in memory (20_memory.md R41). -/
def encodeBytes (i : Instr) : List Byte :=
  [(encode i).extractLsb' 8 8, (encode i).extractLsb' 0 8]

/-! ### The opcode table as data (R65) -/

/-- One row of spec/opcode_table.json: the number of the rule that gives it, its match, mask and priority. -/
structure OpRow where
  rule : Nat
  matchBits : Word
  maskBits : Word
  priority : Nat
  deriving DecidableEq, Repr

/-- R65: "rows with `(w & mask) == match`". -/
def OpRow.accepts (r : OpRow) (w : Word) : Bool := (w &&& r.maskBits) == r.matchBits

/-- The rule of spec/ that gives an instruction its row of the table. -/
def Instr.rule : Instr → Nat
  | .cls => 75
  | .ret => 76
  | .sys _ => 77
  | .jp _ => 78
  | .call _ => 79
  | .seImm _ _ => 80
  | .sneImm _ _ => 81
  | .seReg _ _ => 82
  | .ldImm _ _ => 83
  | .addImm _ _ => 84
  | .ldReg _ _ => 85
  | .orReg _ _ => 86
  | .andReg _ _ => 87
  | .xorReg _ _ => 88
  | .addRegNI _ _ => 89
  | .aluOtherNI _ _ _ => 90
  | .sneRegNI _ _ _ => 91
  | .ldI _ => 92
  | .jpV0 _ => 93
  | .rnd _ _ => 94
  | .drwNI _ _ _ => 95
  | .keyNI _ _ => 96
  | .ldVxDT _ => 97
  | .keyWaitNI _ => 98
  | .ldDT _ => 99
  | .ldST _ => 100
  | .addI _ => 101
  | .glyphNI _ => 102
  | .bcdNI _ => 103
  | .storeBlock _ => 104
  | .loadBlock _ => 105
  | .fOtherNI _ _ => 106

/-- The rows of families 0 to 8. -/
def opRowsLow : List OpRow :=
  [⟨75, 0x00E0#16, 0xFFFF#16, 0⟩, ⟨76, 0x00EE#16, 0xFFFF#16, 0⟩, ⟨77, 0x0000#16, 0xF000#16, 1⟩,
   ⟨78, 0x1000#16, 0xF000#16, 0⟩, ⟨79, 0x2000#16, 0xF000#16, 0⟩, ⟨80, 0x3000#16, 0xF000#16, 0⟩,
   ⟨81, 0x4000#16, 0xF000#16, 0⟩, ⟨82, 0x5000#16, 0xF000#16, 0⟩, ⟨83, 0x6000#16, 0xF000#16, 0⟩,
   ⟨84, 0x7000#16, 0xF000#16, 0⟩, ⟨85, 0x8000#16, 0xF00F#16, 0⟩, ⟨86, 0x8001#16, 0xF00F#16, 0⟩,
   ⟨87, 0x8002#16, 0xF00F#16, 0⟩, ⟨88, 0x8003#16, 0xF00F#16, 0⟩, ⟨89, 0x8004#16, 0xF00F#16, 0⟩,
   ⟨90, 0x8000#16, 0xF000#16, 1⟩]

/-- The rows of families 9 to F. -/
def opRowsHigh : List OpRow :=
  [⟨91, 0x9000#16, 0xF000#16, 0⟩, ⟨92, 0xA000#16, 0xF000#16, 0⟩, ⟨93, 0xB000#16, 0xF000#16, 0⟩,
   ⟨94, 0xC000#16, 0xF000#16, 0⟩, ⟨95, 0xD000#16, 0xF000#16, 0⟩, ⟨96, 0xE000#16, 0xF000#16, 0⟩,
   ⟨97, 0xF007#16, 0xF0FF#16, 0⟩, ⟨98, 0xF00A#16, 0xF0FF#16, 0⟩, ⟨99, 0xF015#16, 0xF0FF#16, 0⟩,
   ⟨100, 0xF018#16, 0xF0FF#16, 0⟩, ⟨101, 0xF01E#16, 0xF0FF#16, 0⟩, ⟨102, 0xF029#16, 0xF0FF#16, 0⟩,
   ⟨103, 0xF033#16, 0xF0FF#16, 0⟩, ⟨104, 0xF055#16, 0xF0FF#16, 0⟩, ⟨105, 0xF065#16, 0xF0FF#16, 0⟩,
   ⟨106, 0xF000#16, 0xF000#16, 1⟩]

def opcodeTable : List OpRow := opRowsLow ++ opRowsHigh

end Sys2Proof
end

