-- ==== Sys2Proof/Config.lean ====
section
/-! DEFINITION. What the spec leaves to the environment: constants with no body, of which nothing can be proved. -/
namespace Sys2Proof

/-- FREE VALUE (DESIGN CHOICE, safe for one run, unsafe for comparing two, assumption 3). The byte the random input
answers at the n-th draw: a free byte "chosen by the environment under no law" (60_exceptions.md R129). -/
opaque Config.randomByte : Nat → Byte

/-- FREE VALUE (DESIGN CHOICE, safe for one run, unsafe for comparing two, assumption 4). How many timer ticks the
environment strobes at the n-th instruction boundary: "any number of ticks (zero or more) at every boundary" (60_exceptions.md R127). -/
opaque Config.ticksAt : Nat → Nat

/-- OPEN PARAMETER (DESIGN CHOICE, safe, assumption 5). `DISPLAY_PRESENT` of the build that `State.reset` describes
(00_scope.md R8, 70_reset_and_hazards.md R135). -/
opaque Config.displayPresent : Bool

end Sys2Proof
end

