-- ==== Sys2Proof/Machine/State.lean ====
section
/-! DEFINITION. The state of the block (10_state.md R17) as plain data, the reasons a step can stop, and the state
after reset (10_state.md R34). -/
namespace Sys2Proof.Machine

/-- `mem` (20_memory.md R37): the cells that differ from what an unlisted address reads as, in strictly rising
address order. `Memory.wf` in Machine/Ops.lean says that form. -/
abbrev Memory := List Host.Cell

/-- The observable events (10_state.md R31). -/
inductive Event where
  /-- An opcode outside the implemented set was executed: the instruction's address and its opcode (R69). -/
  | notImplemented (pc op : Word)
  /-- The display collaborator was asked to clear: the instruction's address (R75). -/
  | displayClear (pc : Word)
  deriving DecidableEq, Repr

/-- The four execution faults (60_exceptions.md R117). -/
inductive FaultCode where
  /-- A fetch needs a byte at or above 4096 (R119). -/
  | fetchRange
  /-- Fx55 or Fx65 reaches a byte at or above 4096 (R120). -/
  | dataRange
  /-- RET with an empty stack (R121). -/
  | stackUnderflow
  /-- CALL with a finite stack that is full (R122). -/
  | stackOverflow
  deriving DecidableEq, Repr

/-- The fault record (10_state.md R32, 60_exceptions.md R117, R118): `op` and `addr` are `none` where the table of
R117 says absent. `addr` has the 16 bits of the port `fault_addr` (R131). -/
structure FaultRecord where
  code : FaultCode
  pc : Word
  op : Option Word
  addr : Option Word
  deriving DecidableEq, Repr

/-- The run status (10_state.md R32). -/
inductive Status where
  | running
  | faulted (r : FaultRecord)
  deriving DecidableEq, Repr

/-- The parameters a build fixes (00_scope.md R8): is a display collaborator attached, and the capacity of the call
stack (`none` is the default `unbounded`). -/
structure Params where
  displayPresent : Bool
  stackDepth : Option Nat
  deriving DecidableEq, Repr

/-- Whether the loader may still be called: once, in reset, before the first cycle (70_reset_and_hazards.md R140). -/
inductive LoadWindow where
  | accepting
  | closed
  deriving DecidableEq, Repr

structure State where
  /-- V0..VF (10_state.md R18). -/
  v : Vector Byte 16
  /-- The index register I (R22). -/
  i : Word
  /-- The program counter (R23). -/
  pc : Word
  /-- The call stack, top last (R25). -/
  stack : List Word
  /-- The delay timer DT (R27). -/
  dt : Byte
  /-- The sound timer ST (R28). -/
  st : Byte
  /-- The memory (20_memory.md R37). -/
  mem : Memory
  /-- The screen buffer, row-major: pixel (c, r) is entry r * 64 + c (R29). -/
  screen : Vector Bool 2048
  /-- The event trace, oldest first (R31). -/
  events : List Event
  /-- Running, or faulted with its record (R32). -/
  status : Status
  /-- MODEL'S OWN FIELD: the parameters of the build (R8, R33; assumptions 5 and 6). -/
  params : Params
  /-- MODEL'S OWN FIELD: how many random bytes have been drawn (R129; assumption 3). -/
  rndCount : Nat
  /-- MODEL'S OWN FIELD: how many boundaries the environment has ticked at (R127; assumption 4). -/
  boundary : Nat
  /-- MODEL'S OWN FIELD: may the loader still be called (R140; assumption 8). -/
  loading : LoadWindow
  deriving DecidableEq, Repr

/-- The host-facing faults. NO STEP raises one: the block's own faults are next states whose `status` holds the record
(60_exceptions.md R118; assumption 1). -/
inductive Fault where
  /-- Raised by `loadImage` alone, with the length of the image: the capacity error that the loader returns to the
  caller (70_reset_and_hazards.md R137, R139). SAFE: the processor is unmodified and no cycle runs on such an image. -/
  | loaderCapacity (len : Nat)
  deriving DecidableEq, Repr

inductive Refusal where
  /-- Raised by `exec`'s arm of an instruction that has no meaning yet; no arm of this model is left so. SAFE. -/
  | notModelled (mnemonic : String)
  /-- Raised by `loadImage` alone: a second load or a load after the first cycle, which "a model gives no meaning"
  (70_reset_and_hazards.md R140). SAFE. -/
  | loadOutsideWindow
  deriving DecidableEq, Repr

/-- The state after reset of a build with parameters `p` (10_state.md R34, 70_reset_and_hazards.md R135). The counters
start at 0 and the load window open: DESIGN CHOICE, safe (assumption 10). -/
def State.resetWith (p : Params) : State where
  v := Vector.replicate 16 0x00#8
  i := 0x0000#16
  pc := 0x0200#16
  stack := []
  dt := 0x00#8
  st := 0x00#8
  mem := []
  screen := Vector.replicate 2048 false
  events := []
  status := .running
  params := p
  rndCount := 0
  boundary := 0
  loading := .accepting

/-- The machine right after reset: the display parameter is left open, the stack is unbounded, which is the default
the spec states (00_scope.md R8, 10_state.md R26; assumptions 5 and 6). -/
def State.reset : State :=
  State.resetWith { displayPresent := Config.displayPresent, stackDepth := none }

end Sys2Proof.Machine
end

