-- ==== Sys2Proof/Machine/Ops.lean ====
section
/-! DEFINITION. The named operations over memory, registers, stack, events and status: the only way the meanings read
and write the state. Fault entry is here, once. -/
namespace Sys2Proof.Machine

/-! ### Memory (20_memory.md) -/

/-- `MEM_SIZE` (R37). -/
def memSize : Nat := 4096

/-- What an address that memory does not list reads as: the zero every cell holds at reset (10_state.md R34;
assumption 11). -/
def unlistedByte : Byte := 0x00#8

/-- The canonical form of memory: rising addresses, all of them cells of the array (R37), no entry equal to what an
unlisted address reads as. -/
abbrev Memory.wf (m : Memory) : Prop :=
  m.Pairwise (fun c d => c.1 < d.1) ∧ ∀ c ∈ m, c.1 < memSize ∧ c.2 ≠ unlistedByte

/-- The byte at an address (`MemRead`, 00_scope.md R11). The callers make the range check of R40 first. -/
def readByte : Memory → Nat → Byte
  | [], _ => unlistedByte
  | c :: m, a => if c.1 = a then c.2 else readByte m a

/-- Memory without an entry for `a`. -/
def eraseCell (a : Nat) (m : Memory) : Memory := m.filter (fun c => c.1 != a)

/-- Memory with an entry for `a` put in its place. -/
def insertCell (a : Nat) (b : Byte) : Memory → Memory
  | [] => [(a, b)]
  | c :: m => if a < c.1 then (a, b) :: c :: m else c :: insertCell a b m

/-- Writing a byte (`MemWrite`, 00_scope.md R11). "An access out of range performs nothing" (R40); the callers raise
the fault before they get here. -/
def writeByte (m : Memory) (a : Nat) (b : Byte) : Memory :=
  if a < memSize then
    if b = unlistedByte then eraseCell a m else insertCell a b (eraseCell a m)
  else m

/-- Consecutive bytes from `a` upward, in order (70_reset_and_hazards.md R138). -/
def writeBytes (m : Memory) (a : Nat) : List Byte → Memory
  | [] => m
  | b :: bs => writeBytes (writeByte m a b) (a + 1) bs

/-- The first byte address at or above 4096 of an access that starts at `a`: `max(a, 4096)` (45_execution_loop.md
R108, 44_family_F.md R104). -/
def firstOutOfRange (a : Word) : Word := if a.toNat < memSize then 0x1000#16 else a

/-! ### Registers, timers, index, program counter (10_state.md) -/

/-- `V[r]` (R18, R21). -/
def State.reg (s : State) (r : RegIdx) : Byte := s.v[r.val]

/-- `V[r] <- b`: no other register changes (R18). -/
def State.setReg (s : State) (r : RegIdx) (b : Byte) : State := { s with v := s.v.set r.val b }

/-- `I <- a` (R22). -/
def State.setI (s : State) (a : Word) : State := { s with i := a }

/-- `pc <- a` (R23). -/
def State.setPc (s : State) (a : Word) : State := { s with pc := a }

/-- `DT <- b` (R27). -/
def State.setDT (s : State) (b : Byte) : State := { s with dt := b }

/-- `ST <- b` (R28). -/
def State.setST (s : State) (b : Byte) : State := { s with st := b }

/-- All of memory replaced: used with the result of a store. -/
def State.setMem (s : State) (m : Memory) : State := { s with mem := m }

/-! ### The call stack (10_state.md R25, R26) -/

/-- `push(S, a)`: on top, which is last (00_scope.md R10). -/
def State.pushStack (s : State) (a : Word) : State := { s with stack := s.stack ++ [a] }

/-- The top entry, `none` where the stack is empty. -/
def State.topStack (s : State) : Option Word := s.stack.getLast?

/-- The stack without its top entry. -/
def State.dropStack (s : State) : State := { s with stack := s.stack.dropLast }

/-- `STACK_DEPTH is finite and len(S) == STACK_DEPTH` (41_family_0_to_5.md R79; assumption 17). -/
def State.stackFull (s : State) : Bool :=
  match s.params.stackDepth with
  | none => false
  | some d => s.stack.length == d

/-! ### Events, random byte, display -/

/-- `report NI(pc, op)` (00_scope.md R12, 40_dispatcher.md R69): the one event, nothing else. -/
def State.reportNI (s : State) (op : Word) : State :=
  { s with events := s.events ++ [.notImplemented s.pc op] }

/-- The byte `draw_rnd()` answers in this state (60_exceptions.md R129; free value, assumption 3). -/
def State.randomByte (s : State) : Byte := Config.randomByte s.rndCount

/-- The state after one draw. -/
def State.countDraw (s : State) : State := { s with rndCount := s.rndCount + 1 }

/-- `display_clear()` and its event, with a collaborator attached; nothing without one (41_family_0_to_5.md R75).
UNVERIFIED, unsafe, assumption 7: the collaborator keeps its contract (60_exceptions.md R130), so it clears every
pixel, changes nothing else and completes. -/
def State.displayClear (s : State) : State :=
  { s with
    screen := if s.params.displayPresent then Vector.replicate 2048 false else s.screen
    events := if s.params.displayPresent then s.events ++ [.displayClear s.pc] else s.events }

/-- The pixel in column c and row r (10_state.md R29). -/
def State.pixel (s : State) (c : Fin 64) (r : Fin 32) : Bool :=
  s.screen[r.val * 64 + c.val]'(by omega)

/-! ### Fault entry (60_exceptions.md R118) -/

/-- TAKING A FAULT, for every instruction and for the fetch: `status` gets the record with the instruction's own
address, and nothing else changes; in particular `pc` is not advanced. There is no return from it (R124): only reset
leaves the faulted state (`hostReset`). -/
def State.takeFault (s : State) (code : FaultCode) (op addr : Option Word) : State :=
  { s with status := .faulted { code := code, pc := s.pc, op := op, addr := addr } }

/-- The number of a fault code (60_exceptions.md R117). -/
def faultNumber : FaultCode → Nat
  | .fetchRange => 1
  | .dataRange => 2
  | .stackUnderflow => 3
  | .stackOverflow => 4

end Sys2Proof.Machine
end

