-- ==== Sys2Proof/Machine/Flags.lean ====
section
/-! DEFINITION. The results and conditions instructions compute. The block has NO status flags and no condition codes
(10_state.md R20): an addition is its wrapped sum and nothing else, and VF is written by no instruction as a side
effect. The one use of a condition is a skip, which looks at the registers directly. -/
namespace Sys2Proof.Machine

/-- `(a + b) mod 256`, "no flag register effect" (42_family_6_to_9.md R84). -/
def addByte (a b : Byte) : Byte := BitVec.ofNat 8 ((a.toNat + b.toNat) % 256)

/-- `(I + zext_16(b)) mod 2^16`, the carry out of bit 15 discarded (44_family_F.md R101). -/
def addIndex (a : Word) (b : Byte) : Word := BitVec.ofNat 16 ((a.toNat + b.toNat) % 65536)

/-- The address two bytes on, modulo 2^16: a taken skip (41_family_0_to_5.md R80) and the cycle's own advance
(45_execution_loop.md R110). -/
def twoOn (a : Word) : Word := BitVec.ofNat 16 ((a.toNat + 2) % 65536)

/-- `if c then pc <- (s.pc + 2) mod 2^16` (41_family_0_to_5.md R80 to R82). -/
def skipIf (c : Bool) (s : State) : State := if c then s.setPc (twoOn s.pc) else s

end Sys2Proof.Machine
end

