-- ==== Sys2Proof/Machine/Operands.lean ====
section
/-! DEFINITION. The operand forms (30_encoding.md R57): the zero-extended immediates, the jump targets, and the
register block V0..Vx with its addresses I + 0 .. I + x. -/
namespace Sys2Proof.Machine

/-- `zext_16(nnn)`: a jump target or an index (R57). -/
def zext16 (nnn : Addr12) : Word := nnn.setWidth 16

/-- `nnn + V0`, exact: at most 0x10FE, which fits (43_family_A_to_E.md R93). -/
def indexedTarget (nnn : Addr12) (v0 : Byte) : Word := BitVec.ofNat 16 (nnn.toNat + v0.toNat)

/-- The registers V0..Vx in ascending order (20_memory.md R43). -/
def blockRegs (x : RegIdx) : List RegIdx := (List.finRange 16).filter (fun k => k ≤ x)

/-- The byte address I + k, an exact natural number (20_memory.md R40). -/
def blockAddr (s : State) (k : RegIdx) : Nat := s.i.toNat + k.val

/-- The range check of Fx55 and Fx65, on the last byte I + x (44_family_F.md R104, R105). -/
def blockInRange (s : State) (x : RegIdx) : Bool := blockAddr s x < memSize

/-- One access of Fx55: V[k] to I + k. -/
def storeReg (s : State) (k : RegIdx) : State :=
  s.setMem (writeByte s.mem (blockAddr s k) (s.reg k))

/-- One access of Fx65: the byte at I + k to V[k]. -/
def loadReg (s : State) (k : RegIdx) : State :=
  s.setReg k (readByte s.mem (blockAddr s k))

/-- The accesses of Fx55 in order, after the range check (44_family_F.md R104). -/
def storeRegs (s : State) (x : RegIdx) : State := (blockRegs x).foldl storeReg s

/-- The accesses of Fx65 in order, after the range check (44_family_F.md R105). -/
def loadRegs (s : State) (x : RegIdx) : State := (blockRegs x).foldl loadReg s

end Sys2Proof.Machine
end

