-- ==== Sys2Proof/Machine/Family0to5.lean ====
section
/-! DEFINITION. Families 0x0 to 0x5 (41_family_0_to_5.md): display clear, return, jump, call, skips. `s.pc` is the
instruction's own address (45_execution_loop.md R109); the cycle advances it afterwards. -/
namespace Sys2Proof.Machine

/-- CLS (R75). -/
def execCls (s : State) : Host.Outcome State Fault Refusal := .next s.displayClear

/-- RET (R76): STACK_UNDERFLOW on an empty stack (60_exceptions.md R121). -/
def execRet (s : State) : Host.Outcome State Fault Refusal :=
  .next (match s.topStack with
    | none => s.takeFault .stackUnderflow (some (encode .ret)) none
    | some a => s.dropStack.setPc a)

/-- SYS nnn (R77): not implemented. -/
def execSys (nnn : Addr12) (s : State) : Host.Outcome State Fault Refusal :=
  .next (s.reportNI (encode (.sys nnn)))

/-- JP nnn (R78). -/
def execJp (nnn : Addr12) (s : State) : Host.Outcome State Fault Refusal :=
  .next (s.setPc (zext16 nnn))

/-- CALL nnn (R79): pushes the CALL's own address; STACK_OVERFLOW where the finite stack is full (60_exceptions.md
R122). -/
def execCall (nnn : Addr12) (s : State) : Host.Outcome State Fault Refusal :=
  .next (if s.stackFull then s.takeFault .stackOverflow (some (encode (.call nnn))) none
    else (s.pushStack s.pc).setPc (zext16 nnn))

/-- SE Vx, nn (R80). -/
def execSeImm (x : RegIdx) (nn : Byte) (s : State) : Host.Outcome State Fault Refusal :=
  .next (skipIf (s.reg x == nn) s)

/-- SNE Vx, nn (R81). -/
def execSneImm (x : RegIdx) (nn : Byte) (s : State) : Host.Outcome State Fault Refusal :=
  .next (skipIf (s.reg x != nn) s)

/-- SE Vx, Vy, for every n (R82). -/
def execSeReg (x y : RegIdx) (s : State) : Host.Outcome State Fault Refusal :=
  .next (skipIf (s.reg x == s.reg y) s)

end Sys2Proof.Machine
end

