-- ==== Sys2Proof/Machine/Family6to9.lean ====
section
/-! DEFINITION. Families 0x6 to 0x9 (42_family_6_to_9.md): register loads, add, register-register operations. None
writes `pc`, and none has a flag (10_state.md R20). -/
namespace Sys2Proof.Machine

/-- LD Vx, nn (R83). -/
def execLdImm (x : RegIdx) (nn : Byte) (s : State) : Host.Outcome State Fault Refusal :=
  .next (s.setReg x nn)

/-- ADD Vx, nn (R84). -/
def execAddImm (x : RegIdx) (nn : Byte) (s : State) : Host.Outcome State Fault Refusal :=
  .next (s.setReg x (addByte (s.reg x) nn))

/-- LD Vx, Vy (R85). -/
def execLdReg (x y : RegIdx) (s : State) : Host.Outcome State Fault Refusal :=
  .next (s.setReg x (s.reg y))

/-- OR Vx, Vy (R86). -/
def execOrReg (x y : RegIdx) (s : State) : Host.Outcome State Fault Refusal :=
  .next (s.setReg x (s.reg x ||| s.reg y))

/-- AND Vx, Vy (R87). -/
def execAndReg (x y : RegIdx) (s : State) : Host.Outcome State Fault Refusal :=
  .next (s.setReg x (s.reg x &&& s.reg y))

/-- XOR Vx, Vy (R88). -/
def execXorReg (x y : RegIdx) (s : State) : Host.Outcome State Fault Refusal :=
  .next (s.setReg x (s.reg x ^^^ s.reg y))

/-- ADD Vx, Vy (R89): not implemented. -/
def execAddRegNI (x y : RegIdx) (s : State) : Host.Outcome State Fault Refusal :=
  .next (s.reportNI (encode (.addRegNI x y)))

/-- 8xyn, n = 5..F (R90): not implemented. -/
def execAluOtherNI (x y : RegIdx) (n : Nibble) (s : State) : Host.Outcome State Fault Refusal :=
  .next (s.reportNI (encode (.aluOtherNI x y n)))

/-- SNE Vx, Vy (R91): not implemented, never skips. -/
def execSneRegNI (x y : RegIdx) (n : Nibble) (s : State) : Host.Outcome State Fault Refusal :=
  .next (s.reportNI (encode (.sneRegNI x y n)))

end Sys2Proof.Machine
end

