-- ==== Sys2Proof/Machine/FamilyAtoE.lean ====
section
/-! DEFINITION. Families 0xA to 0xE (43_family_A_to_E.md): index load, indexed jump, random byte, and the
not-implemented display draw and key skips. -/
namespace Sys2Proof.Machine

/-- LD I, nnn (R92). -/
def execLdI (nnn : Addr12) (s : State) : Host.Outcome State Fault Refusal :=
  .next (s.setI (zext16 nnn))

/-- JP V0, nnn (R93). -/
def execJpV0 (nnn : Addr12) (s : State) : Host.Outcome State Fault Refusal :=
  .next (s.setPc (indexedTarget nnn (s.reg 0)))

/-- RND Vx, nn (R94): exactly one byte is drawn, for every nn. -/
def execRnd (x : RegIdx) (nn : Byte) (s : State) : Host.Outcome State Fault Refusal :=
  .next (s.countDraw.setReg x (s.randomByte &&& nn))

/-- DRW Vx, Vy, n (R95): not implemented. -/
def execDrwNI (x y : RegIdx) (n : Nibble) (s : State) : Host.Outcome State Fault Refusal :=
  .next (s.reportNI (encode (.drwNI x y n)))

/-- SKP Vx / SKNP Vx (R96): not implemented, no key is read. -/
def execKeyNI (x : RegIdx) (nn : Byte) (s : State) : Host.Outcome State Fault Refusal :=
  .next (s.reportNI (encode (.keyNI x nn)))

end Sys2Proof.Machine
end

