-- ==== Sys2Proof/Machine/FamilyF.lean ====
section
/-! DEFINITION. Family 0xF (44_family_F.md): timers, index add, block store and load. None writes `pc`. -/
namespace Sys2Proof.Machine

/-- LD Vx, DT (R97). -/
def execLdVxDT (x : RegIdx) (s : State) : Host.Outcome State Fault Refusal :=
  .next (s.setReg x s.dt)

/-- LD Vx, K (R98): not implemented, does not block. -/
def execKeyWaitNI (x : RegIdx) (s : State) : Host.Outcome State Fault Refusal :=
  .next (s.reportNI (encode (.keyWaitNI x)))

/-- LD DT, Vx (R99). -/
def execLdDT (x : RegIdx) (s : State) : Host.Outcome State Fault Refusal :=
  .next (s.setDT (s.reg x))

/-- LD ST, Vx (R100). -/
def execLdST (x : RegIdx) (s : State) : Host.Outcome State Fault Refusal :=
  .next (s.setST (s.reg x))

/-- ADD I, Vx (R101). -/
def execAddI (x : RegIdx) (s : State) : Host.Outcome State Fault Refusal :=
  .next (s.setI (addIndex s.i (s.reg x)))

/-- LD F, Vx (R102): not implemented. -/
def execGlyphNI (x : RegIdx) (s : State) : Host.Outcome State Fault Refusal :=
  .next (s.reportNI (encode (.glyphNI x)))

/-- LD B, Vx (R103): not implemented. -/
def execBcdNI (x : RegIdx) (s : State) : Host.Outcome State Fault Refusal :=
  .next (s.reportNI (encode (.bcdNI x)))

/-- LD [I], Vx (R104): DATA_RANGE before any write (60_exceptions.md R120). -/
def execStoreBlock (x : RegIdx) (s : State) : Host.Outcome State Fault Refusal :=
  .next (if blockInRange s x then storeRegs s x
    else s.takeFault .dataRange (some (encode (.storeBlock x))) (some (firstOutOfRange s.i)))

/-- LD Vx, [I] (R105): DATA_RANGE before any read (60_exceptions.md R120). -/
def execLoadBlock (x : RegIdx) (s : State) : Host.Outcome State Fault Refusal :=
  .next (if blockInRange s x then loadRegs s x
    else s.takeFault .dataRange (some (encode (.loadBlock x))) (some (firstOutOfRange s.i)))

/-- Fxnn with any other nn (R106): not implemented. -/
def execFOtherNI (x : RegIdx) (nn : Byte) (s : State) : Host.Outcome State Fault Refusal :=
  .next (s.reportNI (encode (.fOtherNI x nn)))

end Sys2Proof.Machine
end

