-- ==== Sys2Proof/Machine/Dispatch.lean ====
section
/-! DEFINITION. The dispatcher (40_dispatcher.md R67): each instruction's own meaning, one arm a constructor. -/
namespace Sys2Proof.Machine

def exec (i : Instr) (s : State) : Host.Outcome State Fault Refusal :=
  match i with
  | .cls => Sys2Proof.Machine.execCls s
  | .ret => Sys2Proof.Machine.execRet s
  | .sys nnn => Sys2Proof.Machine.execSys nnn s
  | .jp nnn => Sys2Proof.Machine.execJp nnn s
  | .call nnn => Sys2Proof.Machine.execCall nnn s
  | .seImm x nn => Sys2Proof.Machine.execSeImm x nn s
  | .sneImm x nn => Sys2Proof.Machine.execSneImm x nn s
  | .seReg x y => Sys2Proof.Machine.execSeReg x y s
  | .ldImm x nn => Sys2Proof.Machine.execLdImm x nn s
  | .addImm x nn => Sys2Proof.Machine.execAddImm x nn s
  | .ldReg x y => Sys2Proof.Machine.execLdReg x y s
  | .orReg x y => Sys2Proof.Machine.execOrReg x y s
  | .andReg x y => Sys2Proof.Machine.execAndReg x y s
  | .xorReg x y => Sys2Proof.Machine.execXorReg x y s
  | .addRegNI x y => Sys2Proof.Machine.execAddRegNI x y s
  | .aluOtherNI x y n => Sys2Proof.Machine.execAluOtherNI x y n s
  | .sneRegNI x y n => Sys2Proof.Machine.execSneRegNI x y n s
  | .ldI nnn => Sys2Proof.Machine.execLdI nnn s
  | .jpV0 nnn => Sys2Proof.Machine.execJpV0 nnn s
  | .rnd x nn => Sys2Proof.Machine.execRnd x nn s
  | .drwNI x y n => Sys2Proof.Machine.execDrwNI x y n s
  | .keyNI x nn => Sys2Proof.Machine.execKeyNI x nn s
  | .ldVxDT x => Sys2Proof.Machine.execLdVxDT x s
  | .keyWaitNI x => Sys2Proof.Machine.execKeyWaitNI x s
  | .ldDT x => Sys2Proof.Machine.execLdDT x s
  | .ldST x => Sys2Proof.Machine.execLdST x s
  | .addI x => Sys2Proof.Machine.execAddI x s
  | .glyphNI x => Sys2Proof.Machine.execGlyphNI x s
  | .bcdNI x => Sys2Proof.Machine.execBcdNI x s
  | .storeBlock x => Sys2Proof.Machine.execStoreBlock x s
  | .loadBlock x => Sys2Proof.Machine.execLoadBlock x s
  | .fOtherNI x nn => Sys2Proof.Machine.execFOtherNI x nn s

end Sys2Proof.Machine
end

