-- ==== Sys2Proof/Machine/Environment.lean ====
section
/-! DEFINITION. The agents around the core and what they may do to it (70_reset_and_hazards.md R148): the timer tick,
reset with the display attached or not, the loader, and what the host observes. -/
namespace Sys2Proof.Machine

/-! ### The timer tick (60_exceptions.md R127) -/

/-- One decrement that stops at zero. PRESUMED, unsafe, assumption 20: R127 states the stop at zero and marks it as
taken from general knowledge. -/
def countdown (b : Byte) : Byte := if b = 0x00#8 then b else b - 0x01#8

/-- One tick: ignored by a faulted block, else both timers count down. -/
def tick (s : State) : State :=
  match s.status with
  | .faulted _ => s
  | .running => { s with dt := countdown s.dt, st := countdown s.st }

/-- `n` decrements at once; a timer at zero stays there whatever `n` is. -/
def countdownBy (n : Nat) (b : Byte) : Byte :=
  if b = 0x00#8 then b else BitVec.ofNat 8 (b.toNat - n)

/-- `n` ticks at one boundary. -/
def applyTicks (n : Nat) (s : State) : State :=
  match s.status with
  | .faulted _ => s
  | .running => { s with dt := countdownBy n s.dt, st := countdownBy n s.st }

/-- What happens at the boundary after a cycle: a free number of ticks (assumption 4), and the load window is shut
once a cycle has run (70_reset_and_hazards.md R140). A faulted block changes no more (60_exceptions.md R118). -/
def atBoundary (s : State) : State :=
  match s.status with
  | .faulted _ => s
  | .running =>
    { applyTicks (Config.ticksAt s.boundary) s with
      boundary := s.boundary + 1
      loading := .closed }

/-! ### Reset and the loader (70_reset_and_hazards.md R135 to R140) -/

/-- The reset input, from any state, the faulted one included (R136), with the display attached or not (R135). The
two counters of the environment go on, so that no draw or tick count is answered twice (assumption 12). -/
def hostReset (present : Bool) (s : State) : State :=
  { State.resetWith { displayPresent := present, stackDepth := s.params.stackDepth } with
    rndCount := s.rndCount
    boundary := s.boundary }

/-- `LOAD_ORIGIN` (00_scope.md R8). -/
def loadOrigin : Nat := 0x200

/-- `LOAD_LIMIT` = 4096 - 0x200 = 3584 (R137; 90_conflicts.md C1). -/
def loadLimit : Nat := memSize - loadOrigin

/-- The loader: one load while in reset; the image verbatim from 0x200 upward (R138); a capacity error that leaves
the processor unmodified (R137, R139); any other load refused (R140). -/
def loadImage (image : List Byte) (s : State) : Host.Outcome State Fault Refusal :=
  match s.loading, s.status with
  | .accepting, .running =>
    if loadLimit < image.length then .fault (.loaderCapacity image.length)
    else .next { s with mem := writeBytes s.mem loadOrigin image, loading := .closed }
  | _, _ => .refused .loadOutsideWindow

/-! ### What the host observes (60_exceptions.md R128, R131) -/

/-- The fault outputs `fault_code`, `fault_pc`, `fault_op`, `fault_addr`. -/
structure FaultPort where
  code : Nat
  pc : Word
  op : Option Word
  addr : Option Word
  deriving DecidableEq, Repr

/-- The outputs the host may read at any boundary: `fault` is `none` while `fault_valid` is low. -/
structure Outputs where
  dt : Byte
  st : Byte
  events : List Event
  fault : Option FaultPort
  deriving DecidableEq, Repr

def faultPort (s : State) : Option FaultPort :=
  match s.status with
  | .running => none
  | .faulted r => some { code := faultNumber r.code, pc := r.pc, op := r.op, addr := r.addr }

def observe (s : State) : Outputs :=
  { dt := s.dt, st := s.st, events := s.events, fault := faultPort s }

/-- The event strobes between two boundaries: the events the second has and the first has not. -/
def strobes (before after : State) : List Event := after.events.drop before.events.length

end Sys2Proof.Machine
end

