-- ==== Sys2Proof/Machine/Cycle.lean ====
section
/-! DEFINITION. The fetch-execute cycle (45_execution_loop.md R107 to R113): fetch, dispatch, advance. -/
namespace Sys2Proof.Machine

/-- The fetch (R108): both bytes in range, high byte first; `none` where `pc + 1 >= 4096`. -/
def fetch (s : State) : Option Word :=
  if s.pc.toNat + 1 < memSize then
    some (wordOfBytes (readByte s.mem s.pc.toNat) (readByte s.mem (s.pc.toNat + 1)))
  else none

/-- The fault of a fetch out of range (R107, 60_exceptions.md R119). -/
def fetchFault (s : State) : State := s.takeFault .fetchRange none (some (firstOutOfRange s.pc))

/-- The advance (R110), after every dispatch that did not fault (R113). -/
def advance (s : State) : State :=
  match s.status with
  | .faulted _ => s
  | .running => s.setPc (twoOn s.pc)

/-- Dispatch of one instruction, then the advance. -/
def execAndAdvance (i : Instr) (s : State) : Host.Outcome State Fault Refusal :=
  match exec i s with
  | .next t => .next (advance t)
  | .fault r => .fault r
  | .refused r => .refused r

/-- One cycle (R107). "A faulted state has no further cycle": it is held, as phase HALT of R116 and vector T6 say
(DEDUCED, safe, assumption 2). -/
def cycle (s : State) : Host.Outcome State Fault Refusal :=
  match s.status with
  | .faulted _ => .next s
  | .running =>
    match fetch s with
    | none => .next (fetchFault s)
    | some op => execAndAdvance (decodeWord op) s

/-- One cycle and the boundary after it. -/
def cycleAndBoundary (s : State) : Host.Outcome State Fault Refusal :=
  match cycle s with
  | .next t => .next (atBoundary t)
  | .fault r => .fault r
  | .refused r => .refused r

/-- `s` with a 16-bit opcode at `pc`, high byte first (20_memory.md R41). -/
def placeWord (s : State) (op : Word) : State :=
  s.setMem (writeBytes s.mem s.pc.toNat [op.extractLsb' 8 8, op.extractLsb' 0 8])

end Sys2Proof.Machine
end

