-- ==== Sys2Proof/Machine/Step.lean ====
section
/-! DEFINITION. One step of the machine: one fetch-execute cycle from an instruction boundary to the next
(45_execution_loop.md R107), the environment's ticks at that boundary included (60_exceptions.md R127). -/
namespace Sys2Proof.Machine

def step (s : State) : Host.Outcome State Fault Refusal := cycleAndBoundary s

/-- `s` with the instruction of the opcode table's bits stored where the next fetch reads, bits above `nbits` zero
(assumption 9: it stands for the loader). -/
def State.withFetchWord (s : State) (nbits w : Nat) : State :=
  placeWord s (BitVec.ofNat 16 (w % 2 ^ nbits))

end Sys2Proof.Machine
end

