-- ==== Sys2Proof/Machine/Sequencer.lean ====
section
/-! DEFINITION. The reference sequencer (45_execution_loop.md R116, informative): the phases that carry out one cycle
of `step`, one byte access at a time, over the architectural state and the sequencer's own registers; the reset line that
takes every phase to RESET; the waits of EXEC; and the loader while in RESET. No architectural rule depends on it
(assumption 19). -/
namespace Sys2Proof.Machine

inductive Phase where
  | reset
  | fetchHi
  | fetchLo
  | decode
  | exec
  | advance
  | halt
  deriving DecidableEq, Repr

/-- The phase, the opcode register IR, the micro-counter of Fx55 and Fx65 (`none` before their range check), and the
architectural state. -/
structure Sequencer where
  phase : Phase
  ir : Word
  micro : Option RegIdx
  core : State
  deriving DecidableEq, Repr

/-- The reset input `rst` (70_reset_and_hazards.md R136). With it the host fixes whether a display is attached (R148). -/
inductive ResetLine where
  | released
  | asserted (displayPresent : Bool)
  deriving DecidableEq, Repr

/-- The inputs the sequencer samples in one phase: `rst`, `rnd_valid` (60_exceptions.md R129) and `clr_done` (R130). -/
structure SequencerInputs where
  reset : ResetLine
  rndValid : Bool
  clrDone : Bool
  deriving DecidableEq, Repr

/-- Reset released, and a collaborator that is asked answers at once. -/
def SequencerInputs.answered : SequencerInputs where
  reset := .released
  rndValid := true
  clrDone := true

/-- One EXEC phase of a block transfer: the range check first, then one access a phase, `k = 0..x`. -/
def blockPhase (access : State → RegIdx → State) (x : RegIdx) (q : Sequencer) : Sequencer :=
  match q.micro with
  | none =>
    if blockInRange q.core x then { q with micro := some 0 }
    else
      { q with
        phase := .halt
        core := q.core.takeFault .dataRange (some q.ir) (some (firstOutOfRange q.core.i)) }
  | some k =>
    if k = x then { q with phase := .advance, micro := none, core := access q.core k }
    else { q with micro := some (k + 1), core := access q.core k }

/-- The EXEC phase of every other instruction: its effect in one phase, HALT where it faulted. -/
def effectPhase (i : Instr) (q : Sequencer) : Sequencer :=
  match exec i q.core with
  | .next t =>
    match t.status with
    | .running => { q with phase := .advance, core := t }
    | .faulted _ => { q with phase := .halt, core := t }
  | .fault _ => q
  | .refused _ => q

/-- Does EXEC wait: "Cxnn waits for one random byte", "00E0 with a collaborator waits for its clear to finish". -/
def execWaits (inp : SequencerInputs) (s : State) : Instr → Bool
  | .rnd _ _ => !inp.rndValid
  | .cls => s.params.displayPresent && !inp.clrDone
  | _ => false

/-- EXEC where it does not wait: the second-level selection is on the opcode register. -/
def execPhase (q : Sequencer) : Sequencer :=
  match decodeWord q.ir with
  | .storeBlock x => blockPhase storeReg x q
  | .loadBlock x => blockPhase loadReg x q
  | i => effectPhase i q

/-- A phase with reset asserted. Any phase, HALT included, goes to RESET with the reset state of 10_state.md R34; RESET
holds what it has, which is that state and the bytes the loader wrote. The opcode register and the micro-counter are
left: every instruction writes them before it reads them (assumption 19). -/
def resetPhase (displayPresent : Bool) (q : Sequencer) : Sequencer :=
  match q.phase with
  | .reset => q
  | _ => { q with phase := .reset, core := hostReset displayPresent q.core }

/-- A phase with reset released. RESET goes on, and HALT "holds the state and the fault record". -/
def releasedPhase (inp : SequencerInputs) (q : Sequencer) : Sequencer :=
  match q.phase with
  | .reset => { q with phase := .fetchHi }
  | .fetchHi =>
    if q.core.pc.toNat + 1 < memSize then
      { q with
        phase := .fetchLo
        ir := wordOfBytes (readByte q.core.mem q.core.pc.toNat) (q.ir.extractLsb' 0 8) }
    else { q with phase := .halt, core := fetchFault q.core }
  | .fetchLo =>
    { q with
      phase := .decode
      ir := wordOfBytes (q.ir.extractLsb' 8 8) (readByte q.core.mem (q.core.pc.toNat + 1)) }
  | .decode => { q with phase := .exec, micro := none }
  | .exec => if execWaits inp q.core (decodeWord q.ir) then q else execPhase q
  | .advance => { q with phase := .fetchHi, core := atBoundary (advance q.core) }
  | .halt => q

/-- One phase (the table of R116). -/
def phaseStep (inp : SequencerInputs) (q : Sequencer) : Sequencer :=
  match inp.reset with
  | .asserted displayPresent => resetPhase displayPresent q
  | .released => releasedPhase inp q

/-- `n` phases with reset released and every wait answered at once. -/
def phaseRun : Nat → Sequencer → Sequencer
  | 0, q => q
  | n + 1, q => phaseRun n (phaseStep .answered q)

/-- In RESET "the loader may write `mem`" (70_reset_and_hazards.md R136 to R140); in any other phase a load is refused
(R140). -/
def sequencerLoad (image : List Byte) (q : Sequencer) : Host.Outcome Sequencer Fault Refusal :=
  match q.phase with
  | .reset =>
    match loadImage image q.core with
    | .next t => .next { q with core := t }
    | .fault r => .fault r
    | .refused r => .refused r
  | _ => .refused .loadOutsideWindow

/-- How many phases an instruction that neither faults nor waits takes: 5, or 4 + (x + 1) plus the range check. -/
def phaseCount : Instr → Nat
  | .storeBlock x => 4 + (x.val + 1) + 1
  | .loadBlock x => 4 + (x.val + 1) + 1
  | _ => 5

end Sys2Proof.Machine
end

