-- ==== Sys2Proof/Safety.lean ====
section
/-! DEFINITION. The terms claims are stated in: the parts of the state and what it is to change only some of them, the
kinds of instructions the whole-machine rules speak of, and the invariants of a run. -/
namespace Sys2Proof.Machine

/-! ### Frames -/

/-- The parts of the state, one a field (10_state.md R17 and the model's own fields). -/
inductive Part where
  | regs
  | index
  | pc
  | stack
  | dt
  | st
  | mem
  | screen
  | events
  | status
  | params
  | rndCount
  | boundary
  | loading
  deriving DecidableEq, Repr

/-- A part is the same in two states; memory byte by byte, through the read of one byte. -/
def Part.same (s t : State) : Part → Prop
  | .regs => ∀ k, t.reg k = s.reg k
  | .index => t.i = s.i
  | .pc => t.pc = s.pc
  | .stack => t.stack = s.stack
  | .dt => t.dt = s.dt
  | .st => t.st = s.st
  | .mem => ∀ a, readByte t.mem a = readByte s.mem a
  | .screen => t.screen = s.screen
  | .events => t.events = s.events
  | .status => t.status = s.status
  | .params => t.params = s.params
  | .rndCount => t.rndCount = s.rndCount
  | .boundary => t.boundary = s.boundary
  | .loading => t.loading = s.loading

/-- `t` is `s` but for the parts listed: "a location a rule does not name is unchanged" (40_dispatcher.md R71). -/
def SameBut (ps : List Part) (s t : State) : Prop := ∀ p, p ∉ ps → Part.same s t p

/-! ### Kinds of instructions -/

/-- The rows the spec marks not implemented (30_encoding.md R62). -/
def isNotImplemented : Instr → Bool
  | .sys _ => true
  | .addRegNI _ _ => true
  | .aluOtherNI _ _ _ => true
  | .sneRegNI _ _ _ => true
  | .drwNI _ _ _ => true
  | .keyNI _ _ => true
  | .keyWaitNI _ => true
  | .glyphNI _ => true
  | .bcdNI _ => true
  | .fOtherNI _ _ => true
  | .cls => false
  | .ret => false
  | .jp _ => false
  | .call _ => false
  | .seImm _ _ => false
  | .sneImm _ _ => false
  | .seReg _ _ => false
  | .ldImm _ _ => false
  | .addImm _ _ => false
  | .ldReg _ _ => false
  | .orReg _ _ => false
  | .andReg _ _ => false
  | .xorReg _ _ => false
  | .ldI _ => false
  | .jpV0 _ => false
  | .rnd _ _ => false
  | .ldVxDT _ => false
  | .ldDT _ => false
  | .ldST _ => false
  | .addI _ => false
  | .storeBlock _ => false
  | .loadBlock _ => false

/-- The control-transfer instructions of 40_dispatcher.md R72. -/
def isControlTransfer : Instr → Bool
  | .ret => true
  | .jp _ => true
  | .call _ => true
  | .seImm _ _ => true
  | .sneImm _ _ => true
  | .seReg _ _ => true
  | .jpV0 _ => true
  | .cls => false
  | .sys _ => false
  | .ldImm _ _ => false
  | .addImm _ _ => false
  | .ldReg _ _ => false
  | .orReg _ _ => false
  | .andReg _ _ => false
  | .xorReg _ _ => false
  | .addRegNI _ _ => false
  | .aluOtherNI _ _ _ => false
  | .sneRegNI _ _ _ => false
  | .ldI _ => false
  | .rnd _ _ => false
  | .drwNI _ _ _ => false
  | .keyNI _ _ => false
  | .ldVxDT _ => false
  | .keyWaitNI _ => false
  | .ldDT _ => false
  | .ldST _ => false
  | .addI _ => false
  | .glyphNI _ => false
  | .bcdNI _ => false
  | .storeBlock _ => false
  | .loadBlock _ => false
  | .fOtherNI _ _ => false

/-- The column "writes" of 10_state.md R19: may the instruction write general register `k`? -/
def mayWriteReg (k : RegIdx) : Instr → Bool
  | .ldImm x _ => k == x
  | .addImm x _ => k == x
  | .ldReg x _ => k == x
  | .orReg x _ => k == x
  | .andReg x _ => k == x
  | .xorReg x _ => k == x
  | .rnd x _ => k == x
  | .ldVxDT x => k == x
  | .loadBlock x => decide (k ≤ x)
  | .cls => false
  | .ret => false
  | .sys _ => false
  | .jp _ => false
  | .call _ => false
  | .seImm _ _ => false
  | .sneImm _ _ => false
  | .seReg _ _ => false
  | .addRegNI _ _ => false
  | .aluOtherNI _ _ _ => false
  | .sneRegNI _ _ _ => false
  | .ldI _ => false
  | .jpV0 _ => false
  | .drwNI _ _ _ => false
  | .keyNI _ _ => false
  | .keyWaitNI _ => false
  | .ldDT _ => false
  | .ldST _ => false
  | .addI _ => false
  | .glyphNI _ => false
  | .bcdNI _ => false
  | .storeBlock _ => false
  | .fOtherNI _ _ => false

/-! ### The next fetch -/

/-- The table of 45_execution_loop.md R111, row by row: where the next fetch is, for an instruction at `s.pc` that does
not fault. -/
def fetchAfter (s : State) : Instr → Nat
  | .jp nnn => nnn.toNat + 2
  | .call nnn => nnn.toNat + 2
  | .ret => (s.stack.getLast?.getD 0).toNat + 2
  | .jpV0 nnn => nnn.toNat + (s.reg 0).toNat + 2
  | .seImm x nn => if s.reg x = nn then s.pc.toNat + 4 else s.pc.toNat + 2
  | .sneImm x nn => if s.reg x ≠ nn then s.pc.toNat + 4 else s.pc.toNat + 2
  | .seReg x y => if s.reg x = s.reg y then s.pc.toNat + 4 else s.pc.toNat + 2
  | .cls => s.pc.toNat + 2
  | .sys _ => s.pc.toNat + 2
  | .ldImm _ _ => s.pc.toNat + 2
  | .addImm _ _ => s.pc.toNat + 2
  | .ldReg _ _ => s.pc.toNat + 2
  | .orReg _ _ => s.pc.toNat + 2
  | .andReg _ _ => s.pc.toNat + 2
  | .xorReg _ _ => s.pc.toNat + 2
  | .addRegNI _ _ => s.pc.toNat + 2
  | .aluOtherNI _ _ _ => s.pc.toNat + 2
  | .sneRegNI _ _ _ => s.pc.toNat + 2
  | .ldI _ => s.pc.toNat + 2
  | .rnd _ _ => s.pc.toNat + 2
  | .drwNI _ _ _ => s.pc.toNat + 2
  | .keyNI _ _ => s.pc.toNat + 2
  | .ldVxDT _ => s.pc.toNat + 2
  | .keyWaitNI _ => s.pc.toNat + 2
  | .ldDT _ => s.pc.toNat + 2
  | .ldST _ => s.pc.toNat + 2
  | .addI _ => s.pc.toNat + 2
  | .glyphNI _ => s.pc.toNat + 2
  | .bcdNI _ => s.pc.toNat + 2
  | .storeBlock _ => s.pc.toNat + 2
  | .loadBlock _ => s.pc.toNat + 2
  | .fOtherNI _ _ => s.pc.toNat + 2

/-! ### Safe runs and invariants -/

/-- Every stack entry is an address the block fetched from (10_state.md R35). -/
def StackEntriesFetched (s : State) : Prop := ∀ e ∈ s.stack, e.toNat ≤ 0xFFE

/-- `len(S) <= d` with finite `STACK_DEPTH = d` (10_state.md R35). -/
def StackWithinDepth (s : State) : Prop := ∀ d, s.params.stackDepth = some d → s.stack.length ≤ d

/-- A fault record carries the address of the instruction at which the block stopped, which `pc` still holds
(60_exceptions.md R118). -/
def RecordAtPc (s : State) : Prop := ∀ r, s.status = .faulted r → r.pc = s.pc

/-- The invariant of every run from reset (10_state.md R35, 45_execution_loop.md R114): memory in its canonical form,
stack entries fetched from, the stack within its depth, `pc` at most 0x1100, a fault record at `pc`. -/
structure RunInv (s : State) : Prop where
  mem : Memory.wf s.mem
  entries : StackEntriesFetched s
  depth : StackWithinDepth s
  pc : s.pc.toNat ≤ 0x1100
  record : RecordAtPc s

/-- Every pixel is false (10_state.md R36). -/
def ScreenDark (s : State) : Prop := ∀ c r, s.pixel c r = false

/-- What a host may do to the block at an instruction boundary (70_reset_and_hazards.md R148): one tick, reset with a
display attached or not, or a load that succeeds. -/
inductive HostMove (s : State) : State → Prop where
  | tick : HostMove s (tick s)
  | reset (present : Bool) : HostMove s (hostReset present s)
  | load (image : List Byte) (t : State) : loadImage image s = .next t → HostMove s t

/-- The states of a run: reset of any build, then steps of the block and moves of the host in any order
(70_reset_and_hazards.md R147). -/
inductive Reachable : State → Prop where
  | reset (p : Params) : Reachable (State.resetWith p)
  | step (s t : State) : Reachable s → step s = .next t → Reachable t
  | host (s t : State) : Reachable s → HostMove s t → Reachable t

end Sys2Proof.Machine
end

