-- ==== Sys2Proof/Certificates/Slice0/Obligations.lean ====
section
/-! DEFINITION. The statements for the provers. Each docstring names the rule of spec/ the statement formalises or rests
on. `SameBut` (Safety.lean) is the frame: the parts of the state it lists may differ and no others, memory compared byte
by byte. -/
open Sys2Proof Sys2Proof.Machine

/-! ### Encoding and decoding -/

/-- Decoding the encoding of a well-formed instruction gives it back (30_encoding.md R58 to R62). -/
def Obligations.DecodeOfEncodeIsIdentity : Prop :=
  ∀ i : Instr, i.wellFormed = true → decodeWord (encode i) = i

/-- Every word is the encoding of what it decodes to, but that 5xyn loses the n it ignores (R63): the encoder gives n = 0,
as the assembler of R66 does (assumption 14). So the opcode an event or a fault record carries is the opcode that was
fetched. -/
def Obligations.EncodeOfDecodeIsIdentity : Prop :=
  ∀ w : Word, encode (decodeWord w) = if familyField w = 0x5#4 then w &&& 0xFFF0#16 else w

/-- The decoder answers only instructions of the table: no catch-all row takes a word of a named row (R62). -/
def Obligations.DecodeGivesWellFormed : Prop :=
  ∀ w : Word, (decodeWord w).wellFormed = true

/-- R65: a word decodes to the row of lowest priority among those that accept it; rows of equal priority never overlap;
some row accepts every word; the rows of priority 1 are the three catch-all rows, of mask 0xF000; and the table has one row
for each of the rules R75 to R106. -/
def Obligations.DecodeFollowsOpcodeTable : Prop :=
  (∀ w : Word, ∃ r ∈ opcodeTable, r.accepts w = true ∧ r.rule = (decodeWord w).rule ∧
    ∀ q ∈ opcodeTable, q.accepts w = true → r.priority ≤ q.priority) ∧
  (∀ w : Word, ∀ q ∈ opcodeTable, ∀ r ∈ opcodeTable, q.accepts w = true → r.accepts w = true →
    q.priority = r.priority → q = r) ∧
  (∀ r ∈ opcodeTable, (r.priority = 1 ↔ r.rule = 77 ∨ r.rule = 90 ∨ r.rule = 106) ∧ r.priority ≤ 1 ∧
    (r.priority = 1 → r.maskBits = 0xF000#16)) ∧
  opcodeTable.map OpRow.rule = List.range' 75 32

/-- R55: the fields by fixed bit-masks and shifts, with the source's example 0x1234. -/
def Obligations.FieldsAreMasksAndShifts : Prop :=
  (∀ op : Word,
    (familyField op).setWidth 16 = (op &&& 0xF000#16) >>> 12 ∧
    (nnnField op).setWidth 16 = op &&& 0x0FFF#16 ∧
    (nnField op).setWidth 16 = op &&& 0x00FF#16 ∧
    (nField op).setWidth 16 = op &&& 0x000F#16 ∧
    BitVec.ofNat 16 (xField op).val = (op &&& 0x0F00#16) >>> 8 ∧
    BitVec.ofNat 16 (yField op).val = (op &&& 0x00F0#16) >>> 4) ∧
  nnnField 0x1234#16 = 0x234#12 ∧ nnField 0x1234#16 = 0x34#8 ∧ nField 0x1234#16 = 0x4#4 ∧
  xField 0x1234#16 = 0x2 ∧ yField 0x1234#16 = 0x3 ∧ familyField 0x1234#16 = 0x1#4

/-- A few words written out from the encoding tables (30_encoding.md R58 to R60), one or more a family. -/
def Obligations.SampleWordsDecode : Prop :=
  decodeWord 0x00E0#16 = .cls ∧ decodeWord 0x00EE#16 = .ret ∧ decodeWord 0x0EE0#16 = .sys 0xEE0#12 ∧
  decodeWord 0x1300#16 = .jp 0x300#12 ∧ decodeWord 0x3210#16 = .seImm 2 0x10#8 ∧
  decodeWord 0x512F#16 = .seReg 1 2 ∧ decodeWord 0x8122#16 = .andReg 1 2 ∧
  decodeWord 0x8124#16 = .addRegNI 1 2 ∧ decodeWord 0xC30F#16 = .rnd 3 0x0F#8 ∧
  decodeWord 0xF355#16 = .storeBlock 3 ∧ decodeWord 0xF130#16 = .fOtherNI 1 0x30#8

/-- The two bytes of an instruction, high byte first, decode to it and leave the bytes after it; one byte alone is
refused by name (30_encoding.md R53, 20_memory.md R41). -/
def Obligations.BytesDecodeInOrder : Prop :=
  (∀ (i : Instr) (rest : List Byte), i.wellFormed = true →
    decodeBytes (encodeBytes i ++ rest) = .ok (i, rest)) ∧
  (∀ bs : List Byte, bs.length < 2 → decodeBytes bs = .error .truncated)

/-! ### The cycle -/

/-- A step runs the decoded instruction (45_execution_loop.md R107): a faulting dispatch ends the cycle as it stands; any
other is followed by the advance of two and the boundary, where the timers tick a free number of times (assumption 4), the
boundary counter goes on and the load window is shut. -/
def Obligations.StepRunsDecodedInstruction : Prop :=
  ∀ (s u : State) (i : Instr), s.status = .running → s.pc.toNat + 1 < 4096 →
    decodeWord (wordOfBytes (readByte s.mem s.pc.toNat) (readByte s.mem (s.pc.toNat + 1))) = i →
    exec i s = .next u →
    (∀ r, u.status = .faulted r → step s = .next u) ∧
    (u.status = .running → ∃ t, step s = .next t ∧ t.pc.toNat = (u.pc.toNat + 2) % 65536 ∧
      t.dt.toNat = u.dt.toNat - Config.ticksAt u.boundary ∧
      t.st.toNat = u.st.toNat - Config.ticksAt u.boundary ∧
      t.boundary = u.boundary + 1 ∧ t.loading = .closed ∧
      SameBut [.pc, .dt, .st, .boundary, .loading] u t)

/-- R41, R42: the opcode at an address, odd or even, is `(mem[a] << 8) | mem[a+1]`; and a word placed by `withFetchWord`
is the word fetched. -/
def Obligations.FetchIsBigEndian : Prop :=
  (∀ s : State, s.pc.toNat + 1 < 4096 → ∃ op, fetch s = some op ∧
    op.toNat = (readByte s.mem s.pc.toNat).toNat * 256 + (readByte s.mem (s.pc.toNat + 1)).toNat) ∧
  ∀ (s : State) (w : Nat), s.pc.toNat + 1 < 4096 → w < 65536 →
    fetch (s.withFetchWord 16 w) = some (BitVec.ofNat 16 w)

/-- R119: FETCH_RANGE when `pc >= 0xFFF`; the record has no opcode and the first missing byte address, and nothing else
changes. -/
def Obligations.FetchRangeFaults : Prop :=
  ∀ s : State, s.status = .running → 0xFFF ≤ s.pc.toNat → ∃ t a, step s = .next t ∧
    t.status = .faulted { code := .fetchRange, pc := s.pc, op := none, addr := some a } ∧
    a.toNat = max s.pc.toNat 4096 ∧ SameBut [.status] s t

/-- R32: `Faulted` is kept until reset: no cycle, instruction, tick or load clears it, and reset does. That a further
cycle holds the state is the model's reading (assumption 2). -/
def Obligations.FaultedIsKeptUntilReset : Prop :=
  ∀ (s : State) (r : FaultRecord), s.status = .faulted r →
    step s = .next s ∧ tick s = s ∧ (∀ n, applyTicks n s = s) ∧
    (∀ image, loadImage image s = .refused .loadOutsideWindow) ∧
    (∀ i t, exec i s = .next t → t.status ≠ .running) ∧
    ∀ present, (hostReset present s).status = .running

/-- Every step answers a next state: there is no normal termination (45_execution_loop.md R112), no illegal instruction
(30_encoding.md R62), and no step changes the parameters of the build (70_reset_and_hazards.md R135). That a fault is a
next state with its record, and that a faulted block holds, is the model's reading (assumptions 1 and 2). -/
def Obligations.EveryStepAnswersNext : Prop :=
  ∀ s : State, ∃ t, step s = .next t ∧ t.params = s.params

/-- R31: the event trace is append-only; a step adds at most one event, and it carries the instruction's own address. -/
def Obligations.EventsAreAppendOnly : Prop :=
  ∀ s t : State, step s = .next t → t.events = s.events ∨
    (∃ op, fetch s = some op ∧ isNotImplemented (decodeWord op) = true ∧
      t.events = s.events ++ [.notImplemented s.pc op]) ∨
    (fetch s = some 0x00E0#16 ∧ s.params.displayPresent = true ∧ t.events = s.events ++ [.displayClear s.pc])

/-- R113: a fault ends the cycle at once: no write of the faulting instruction, no advance, and the record has the
instruction's address. -/
def Obligations.FaultsArePrecise : Prop :=
  ∀ (s t : State) (r : FaultRecord), s.status = .running → step s = .next t → t.status = .faulted r →
    r.pc = s.pc ∧ t.mem = s.mem ∧ SameBut [.status] s t

/-- R117, R123: the four causes of a fault and no other, with the whole record; the opcode is the one fetched. -/
def Obligations.FaultsHaveFourCauses : Prop :=
  ∀ (s t : State) (r : FaultRecord), s.status = .running → step s = .next t → t.status = .faulted r →
    (0xFFF ≤ s.pc.toNat ∧ fetch s = none ∧
      r = { code := .fetchRange, pc := s.pc, op := none, addr := some (firstOutOfRange s.pc) }) ∨
    ∃ op, fetch s = some op ∧
      ((decodeWord op = .ret ∧ s.stack = [] ∧
          r = { code := .stackUnderflow, pc := s.pc, op := some op, addr := none }) ∨
       (∃ nnn, decodeWord op = .call nnn ∧ s.params.stackDepth = some s.stack.length ∧
          r = { code := .stackOverflow, pc := s.pc, op := some op, addr := none }) ∨
       (∃ x, (decodeWord op = .storeBlock x ∨ decodeWord op = .loadBlock x) ∧ 4096 ≤ s.i.toNat + x.val ∧
          r = { code := .dataRange, pc := s.pc, op := some op, addr := some (firstOutOfRange s.i) }))

/-- R111: the address of the next fetch, for every instruction that does not fault (`fetchAfter` is the table); CALL
pushes its own address. -/
def Obligations.NextFetchFollowsTable : Prop :=
  ∀ (s t : State) (op : Word), s.status = .running → fetch s = some op → step s = .next t →
    t.status = .running →
    t.pc.toNat = fetchAfter s (decodeWord op) % 65536 ∧
    ∀ nnn, decodeWord op = .call nnn → t.stack = s.stack ++ [s.pc]

/-- R114: in a state that meets the run invariant the advance never wraps and the next `pc` is at most 0x1100. -/
def Obligations.NextFetchNeverWraps : Prop :=
  ∀ (s t : State) (op : Word), RunInv s → s.status = .running → fetch s = some op → step s = .next t →
    t.status = .running → t.pc.toNat = fetchAfter s (decodeWord op) ∧ t.pc.toNat ≤ 0x1100

/-- R116 (informative): the reference sequencer, started at FETCH_HI with any contents of its own registers, reaches the
state `step` gives: in as many phases as R116 counts where no fault occurs, and in HALT with the fault record where one
does. Every wait is answered at once (assumption 19). -/
def Obligations.SequencerRefinesStep : Prop :=
  ∀ (s t : State) (ir : Word) (micro : Option RegIdx), s.status = .running → step s = .next t →
    (t.status = .running → ∃ op, fetch s = some op ∧
      (phaseRun (phaseCount (decodeWord op)) ⟨.fetchHi, ir, micro, s⟩).core = t ∧
      (phaseRun (phaseCount (decodeWord op)) ⟨.fetchHi, ir, micro, s⟩).phase = .fetchHi) ∧
    (∀ r, t.status = .faulted r → ∃ n,
      (phaseRun n ⟨.fetchHi, ir, micro, s⟩).core = t ∧ (phaseRun n ⟨.fetchHi, ir, micro, s⟩).phase = .halt)

/-! ### Rules about all instructions -/

/-- R72: no instruction but the jump, call, return and skip members alters the counter during dispatch. -/
def Obligations.OnlyControlTransfersWritePc : Prop :=
  ∀ (i : Instr) (s t : State), exec i s = .next t → isControlTransfer i = false → t.pc = s.pc

/-- The column "writes" of 10_state.md R19, which is R20 for VF: a general register an instruction does not name there is
unchanged. -/
def Obligations.RegisterWritersAreListed : Prop :=
  ∀ (i : Instr) (s t : State) (k : RegIdx), exec i s = .next t → mayWriteReg k i = false → t.reg k = s.reg k

/-- Which instructions may change each part of the state other than the registers and `pc` (10_state.md R22, R25, R27 to
R29, R31, R32, 20_memory.md R38, 40_dispatcher.md R71, 60_exceptions.md R117). The clauses on the last four are about the
model's own fields: the draw counter (assumption 3), the parameters (5, 6), the boundary counter (4), the load window
(8). -/
def Obligations.EachPartHasItsWriters : Prop :=
  ∀ (i : Instr) (s t : State), exec i s = .next t →
    (t.i ≠ s.i → (∃ nnn, i = .ldI nnn) ∨ ∃ x, i = .addI x) ∧
    (t.stack ≠ s.stack → i = .ret ∨ ∃ nnn, i = .call nnn) ∧
    (t.dt ≠ s.dt → ∃ x, i = .ldDT x) ∧
    (t.st ≠ s.st → ∃ x, i = .ldST x) ∧
    (t.mem ≠ s.mem → ∃ x, i = .storeBlock x) ∧
    (t.screen ≠ s.screen → i = .cls) ∧
    (t.events ≠ s.events → i = .cls ∨ isNotImplemented i = true) ∧
    (t.status ≠ s.status → i = .ret ∨ (∃ nnn, i = .call nnn) ∨ ∃ x, i = .storeBlock x ∨ i = .loadBlock x) ∧
    (t.rndCount ≠ s.rndCount → ∃ x nn, i = .rnd x nn) ∧
    t.params = s.params ∧ t.boundary = s.boundary ∧ t.loading = s.loading

/-- No instruction reads ST (10_state.md R28), the screen buffer (R29) or the event trace (R31): states that differ only
there go to states that differ only there. -/
def Obligations.SoundTimerScreenAndEventsAreNotRead : Prop :=
  ∀ s s' t t' : State, SameBut [.st, .screen, .events] s s' → step s = .next t → step s' = .next t' →
    SameBut [.st, .screen, .events] t t'

/-! ### Invariants of a run -/

/-- Every step keeps the run invariant (10_state.md R35, 45_execution_loop.md R114): canonical memory, stack entries at
most 0xFFE, the stack within its depth, `pc` at most 0x1100, a fault record at `pc`. -/
def Obligations.StepKeepsRunInvariant : Prop :=
  ∀ s t : State, RunInv s → step s = .next t → RunInv t

/-- The state after reset, of any build and of the host's core, meets the run invariant. -/
def Obligations.ResetMeetsRunInvariant : Prop :=
  (∀ p : Params, RunInv (State.resetWith p)) ∧ RunInv State.reset

/-- What the host may do at a boundary (70_reset_and_hazards.md R148) keeps the run invariant and a dark screen. -/
def Obligations.HostMovesKeepRunInvariant : Prop :=
  ∀ s t : State, HostMove s t → (RunInv s → RunInv t) ∧ (ScreenDark s → ScreenDark t)

/-- R36: no step sets a pixel: a dark screen stays dark. That a clear does what the contract of R130 says is assumption 7. -/
def Obligations.StepKeepsScreenDark : Prop :=
  ∀ s t : State, ScreenDark s → step s = .next t → ScreenDark t

/-- Every state of a run from reset, with any number of ticks, resets and loads by the host between the steps, meets the
run invariant and has a dark screen (10_state.md R35, R36). -/
def Obligations.ReachableStatesMeetInvariants : Prop :=
  ∀ s : State, Reachable s → RunInv s ∧ ScreenDark s

/-! ### The environment -/

/-- 60_exceptions.md R127: a tick takes one from each timer that is not zero and changes nothing else; a faulted block
ignores it. The stop at zero is the spec's own general knowledge (assumption 20). -/
def Obligations.TickCountsDown : Prop :=
  ∀ s : State,
    (s.status = .running → (tick s).dt.toNat = s.dt.toNat - 1 ∧ (tick s).st.toNat = s.st.toNat - 1) ∧
    (∀ r, s.status = .faulted r → tick s = s) ∧ SameBut [.dt, .st] s (tick s)

/-- The ticks of one boundary, taken at once, are that many single ticks (60_exceptions.md section 3). -/
def Obligations.TicksAtBoundaryCompose : Prop :=
  ∀ (n : Nat) (s : State), applyTicks n s = tick^[n] s

/-- R34, R135, R136: what reset leaves, in a new block and from any state, the faulted one included. -/
def Obligations.ResetLeavesTable : Prop :=
  ∀ s : State, (∃ p, s = State.resetWith p) ∨ (∃ present u, s = hostReset present u) →
    (∀ k, s.reg k = 0x00#8) ∧ s.i = 0x0000#16 ∧ s.pc = 0x0200#16 ∧ s.stack = [] ∧ s.dt = 0x00#8 ∧
    s.st = 0x00#8 ∧ (∀ a, readByte s.mem a = 0x00#8) ∧ (∀ c r, s.pixel c r = false) ∧ s.events = [] ∧
    s.status = .running

/-- R137, R138: an image of at most 3584 bytes loads; byte k lies at 0x200 + k, every other byte is as before, and nothing
else changes but the load window, which is the model's own field and shuts (assumption 8). -/
def Obligations.LoaderStoresImage : Prop :=
  ∀ (image : List Byte) (s : State), s.loading = .accepting → s.status = .running → image.length ≤ 3584 →
    ∃ t, loadImage image s = .next t ∧
      (∀ (k : Nat) (h : k < image.length), readByte t.mem (0x200 + k) = image[k]) ∧
      (∀ a, a < 0x200 ∨ 0x200 + image.length ≤ a → readByte t.mem a = readByte s.mem a) ∧
      t.loading = .closed ∧ SameBut [.mem, .loading] s t

/-- R137, R139, R140: a longer image is a capacity error, and a load after a load or after a cycle is refused. That the
first is the outcome `fault` and the second a refusal is the model's form of them (assumption 8). -/
def Obligations.LoaderTurnsAway : Prop :=
  (∀ (image : List Byte) (s : State), s.loading = .accepting → s.status = .running → 3584 < image.length →
    loadImage image s = .fault (.loaderCapacity image.length)) ∧
  (∀ (image again : List Byte) (s t : State), loadImage image s = .next t →
    loadImage again t = .refused .loadOutsideWindow) ∧
  ∀ (image : List Byte) (s t : State), step s = .next t → loadImage image t = .refused .loadOutsideWindow

/-! ### The not-implemented condition -/

/-- R69, for SYS, ADD_reg_NI, ALU_other_NI, SNE_reg_NI, DRW_NI, KEY_NI, KEYWAIT_NI, GLYPH_NI, BCD_NI and F_other_NI: the
event with the instruction's address and opcode, and no other change. -/
def Obligations.NotImplementedReportsOnly : Prop :=
  ∀ (i : Instr) (s : State), isNotImplemented i = true → ∃ t, exec i s = .next t ∧
    t.events = s.events ++ [.notImplemented s.pc (encode i)] ∧ SameBut [.events] s t

/-- R70: it is no fault; the event carries the word that was fetched, `pc` advances by two and the run goes on. -/
def Obligations.NotImplementedRunsOn : Prop :=
  ∀ (s : State) (op : Word), s.status = .running → fetch s = some op →
    isNotImplemented (decodeWord op) = true → ∃ t, step s = .next t ∧ t.status = .running ∧
      t.pc.toNat = s.pc.toNat + 2 ∧ t.events = s.events ++ [.notImplemented s.pc op] ∧
      SameBut [.pc, .events, .dt, .st, .boundary, .loading] s t

/-! ### Families 0x0 to 0x5 -/

/-- R75: with a collaborator every pixel is false and DisplayClear is recorded; without one nothing changes. That the
collaborator clears as the rule's pseudocode has it is its contract (R130; assumption 7). -/
def Obligations.ClearScreenEffect : Prop :=
  ∀ s : State, ∃ t, exec .cls s = .next t ∧
    (s.params.displayPresent = true →
      (∀ c r, t.pixel c r = false) ∧ t.events = s.events ++ [.displayClear s.pc]) ∧
    (s.params.displayPresent = false → t.screen = s.screen ∧ t.events = s.events) ∧
    SameBut [.screen, .events] s t

/-- R76: RET pops the top entry into `pc`; on an empty stack it faults with STACK_UNDERFLOW and changes nothing else. -/
def Obligations.ReturnPopsOrUnderflows : Prop :=
  (∀ (s : State) (rest : List Word) (a : Word), s.stack = rest ++ [a] → ∃ t, exec .ret s = .next t ∧
    t.pc = a ∧ t.stack = rest ∧ SameBut [.pc, .stack] s t) ∧
  ∀ s : State, s.stack = [] → ∃ t, exec .ret s = .next t ∧
    t.status = .faulted { code := .stackUnderflow, pc := s.pc, op := some 0x00EE#16, addr := none } ∧
    SameBut [.status] s t

/-- R78: JP writes exactly nnn, whatever `pc` was; the cycle then adds two, so the next fetch is at nnn + 2. The timers may
tick at the boundary after the cycle (R127). -/
def Obligations.JumpEffect : Prop :=
  ∀ (nnn : Addr12) (s : State),
    (∃ t, exec (.jp nnn) s = .next t ∧ t.pc.toNat = nnn.toNat ∧ SameBut [.pc] s t) ∧
    (s.status = .running → fetch s = some (encode (.jp nnn)) → ∃ t, step s = .next t ∧ t.status = .running ∧
      t.pc.toNat = nnn.toNat + 2 ∧ SameBut [.pc, .dt, .st, .boundary, .loading] s t)

/-- R79, R122: CALL pushes its own address and writes nnn; with a finite STACK_DEPTH and that many entries it faults with
STACK_OVERFLOW and changes nothing else. -/
def Obligations.CallPushesOrOverflows : Prop :=
  ∀ (nnn : Addr12) (s : State),
    (s.params.stackDepth ≠ some s.stack.length → ∃ t, exec (.call nnn) s = .next t ∧
      t.stack = s.stack ++ [s.pc] ∧ t.pc.toNat = nnn.toNat ∧ SameBut [.pc, .stack] s t) ∧
    (s.params.stackDepth = some s.stack.length → ∃ t op, exec (.call nnn) s = .next t ∧
      t.status = .faulted { code := .stackOverflow, pc := s.pc, op := some op, addr := none } ∧
      op.toNat = 0x2000 + nnn.toNat ∧ SameBut [.status] s t)

/-- R80: SE Vx, nn adds two to its own address where Vx equals nn. -/
def Obligations.SkipIfEqualImmediate : Prop :=
  ∀ (x : RegIdx) (nn : Byte) (s : State), ∃ t, exec (.seImm x nn) s = .next t ∧
    t.pc.toNat = (if s.reg x = nn then (s.pc.toNat + 2) % 65536 else s.pc.toNat) ∧ SameBut [.pc] s t

/-- R81: SNE Vx, nn adds two to its own address where Vx differs from nn. -/
def Obligations.SkipIfNotEqualImmediate : Prop :=
  ∀ (x : RegIdx) (nn : Byte) (s : State), ∃ t, exec (.sneImm x nn) s = .next t ∧
    t.pc.toNat = (if s.reg x = nn then s.pc.toNat else (s.pc.toNat + 2) % 65536) ∧ SameBut [.pc] s t

/-- R82: SE Vx, Vy adds two to its own address where the registers are equal, always with x = y; every word 5xyn is this
instruction. -/
def Obligations.SkipIfRegistersEqual : Prop :=
  (∀ (x y : RegIdx) (s : State), ∃ t, exec (.seReg x y) s = .next t ∧
    t.pc.toNat = (if s.reg x = s.reg y then (s.pc.toNat + 2) % 65536 else s.pc.toNat) ∧ SameBut [.pc] s t) ∧
  ∀ (x y : RegIdx) (n : Nibble), decodeWord (wordXYN 0x5#4 x y n) = .seReg x y

/-! ### Families 0x6 to 0x9 -/

/-- R83: LD Vx, nn, for every x, VF included. -/
def Obligations.LoadImmediateEffect : Prop :=
  ∀ (x : RegIdx) (nn : Byte) (s : State), ∃ t, exec (.ldImm x nn) s = .next t ∧
    (∀ k, t.reg k = if k = x then nn else s.reg k) ∧ SameBut [.regs] s t

/-- R84: ADD Vx, nn modulo 256, with no flag: no register but Vx changes, VF among them. -/
def Obligations.AddImmediateEffect : Prop :=
  ∀ (x : RegIdx) (nn : Byte) (s : State), ∃ t, exec (.addImm x nn) s = .next t ∧
    (t.reg x).toNat = ((s.reg x).toNat + nn.toNat) % 256 ∧
    (∀ k, k ≠ x → t.reg k = s.reg k) ∧ SameBut [.regs] s t

/-- R85 to R88: LD, OR, AND and XOR of Vx and Vy into Vx, bit by bit; no other register changes. With x = y the first
three leave Vx and the last clears it. -/
def Obligations.RegisterOperationEffects : Prop :=
  ∀ (x y : RegIdx) (s : State),
    (∃ t, exec (.ldReg x y) s = .next t ∧ t.reg x = s.reg y ∧
      (∀ k, k ≠ x → t.reg k = s.reg k) ∧ SameBut [.regs] s t) ∧
    (∃ t, exec (.orReg x y) s = .next t ∧
      (∀ b, (t.reg x).getLsbD b = ((s.reg x).getLsbD b || (s.reg y).getLsbD b)) ∧
      (∀ k, k ≠ x → t.reg k = s.reg k) ∧ SameBut [.regs] s t) ∧
    (∃ t, exec (.andReg x y) s = .next t ∧
      (∀ b, (t.reg x).getLsbD b = ((s.reg x).getLsbD b && (s.reg y).getLsbD b)) ∧
      (∀ k, k ≠ x → t.reg k = s.reg k) ∧ SameBut [.regs] s t) ∧
    (∃ t, exec (.xorReg x y) s = .next t ∧
      (∀ b, (t.reg x).getLsbD b = ((s.reg x).getLsbD b != (s.reg y).getLsbD b)) ∧
      (x = y → t.reg x = 0x00#8) ∧
      (∀ k, k ≠ x → t.reg k = s.reg k) ∧ SameBut [.regs] s t)

/-! ### Families 0xA to 0xE -/

/-- R92: LD I, nnn. -/
def Obligations.LoadIndexEffect : Prop :=
  ∀ (nnn : Addr12) (s : State), ∃ t, exec (.ldI nnn) s = .next t ∧ t.i.toNat = nnn.toNat ∧ SameBut [.index] s t

/-- R93: JP V0, nnn writes the exact sum, not reduced modulo 4096. -/
def Obligations.IndexedJumpEffect : Prop :=
  ∀ (nnn : Addr12) (s : State), ∃ t, exec (.jpV0 nnn) s = .next t ∧
    t.pc.toNat = nnn.toNat + (s.reg 0).toNat ∧ SameBut [.pc] s t

/-- R94: RND draws exactly one byte, for every nn, and masks it; the byte is a free value (assumption 3), so nothing is
said of it. -/
def Obligations.RandomByteEffect : Prop :=
  ∀ (x : RegIdx) (nn : Byte) (s : State), ∃ t, exec (.rnd x nn) s = .next t ∧
    t.reg x = Config.randomByte s.rndCount &&& nn ∧ t.rndCount = s.rndCount + 1 ∧
    (∀ k, k ≠ x → t.reg k = s.reg k) ∧ SameBut [.regs, .rndCount] s t

/-! ### Family 0xF -/

/-- R97: LD Vx, DT. -/
def Obligations.ReadDelayTimerEffect : Prop :=
  ∀ (x : RegIdx) (s : State), ∃ t, exec (.ldVxDT x) s = .next t ∧ t.reg x = s.dt ∧
    (∀ k, k ≠ x → t.reg k = s.reg k) ∧ SameBut [.regs] s t

/-- R99: LD DT, Vx. -/
def Obligations.SetDelayTimerEffect : Prop :=
  ∀ (x : RegIdx) (s : State), ∃ t, exec (.ldDT x) s = .next t ∧ t.dt = s.reg x ∧ SameBut [.dt] s t

/-- R100: LD ST, Vx. -/
def Obligations.SetSoundTimerEffect : Prop :=
  ∀ (x : RegIdx) (s : State), ∃ t, exec (.ldST x) s = .next t ∧ t.st = s.reg x ∧ SameBut [.st] s t

/-- R101: ADD I, Vx modulo 2^16, not reduced to 12 bits, VF not written. -/
def Obligations.AddIndexEffect : Prop :=
  ∀ (x : RegIdx) (s : State), ∃ t, exec (.addI x) s = .next t ∧
    t.i.toNat = (s.i.toNat + (s.reg x).toNat) % 65536 ∧ SameBut [.index] s t

/-- R104, R120: Fx55 in range writes exactly the x + 1 bytes from I upward, V0 first, and leaves I; out of range it
faults with DATA_RANGE and writes nothing. -/
def Obligations.StoreBlockEffect : Prop :=
  ∀ (x : RegIdx) (s : State),
    (s.i.toNat + x.val < 4096 → ∃ t, exec (.storeBlock x) s = .next t ∧
      (∀ k : RegIdx, k ≤ x → readByte t.mem (blockAddr s k) = s.reg k) ∧
      (∀ a, a < blockAddr s 0 ∨ blockAddr s x < a → readByte t.mem a = readByte s.mem a) ∧
      SameBut [.mem] s t) ∧
    (4096 ≤ s.i.toNat + x.val → ∃ t op a, exec (.storeBlock x) s = .next t ∧
      t.status = .faulted { code := .dataRange, pc := s.pc, op := some op, addr := some a } ∧
      op.toNat = 0xF055 + 256 * x.val ∧ a.toNat = max s.i.toNat 4096 ∧ SameBut [.status] s t)

/-- R105, R120: Fx65 in range reads exactly the x + 1 bytes from I upward into V0..Vx, and leaves I and memory; out of
range it faults with DATA_RANGE and writes no register. -/
def Obligations.LoadBlockEffect : Prop :=
  ∀ (x : RegIdx) (s : State),
    (s.i.toNat + x.val < 4096 → ∃ t, exec (.loadBlock x) s = .next t ∧
      (∀ k : RegIdx, k ≤ x → t.reg k = readByte s.mem (blockAddr s k)) ∧
      (∀ k : RegIdx, x < k → t.reg k = s.reg k) ∧ SameBut [.regs] s t) ∧
    (4096 ≤ s.i.toNat + x.val → ∃ t op a, exec (.loadBlock x) s = .next t ∧
      t.status = .faulted { code := .dataRange, pc := s.pc, op := some op, addr := some a } ∧
      op.toNat = 0xF065 + 256 * x.val ∧ a.toNat = max s.i.toNat 4096 ∧ SameBut [.status] s t)

/-! ### Instructions together -/

/-- A RET that finds the stack as a CALL left it resumes after the CALL with the stack as before it (41_family_0_to_5.md
R76, R79, 45_execution_loop.md R111; 90_conflicts.md C4). -/
def Obligations.ReturnResumesAfterCall : Prop :=
  ∀ (s : State) (nnn : Addr12), s.status = .running → fetch s = some (encode (.call nnn)) →
    s.params.stackDepth ≠ some s.stack.length → ∃ t, step s = .next t ∧ t.status = .running ∧
      t.pc.toNat = nnn.toNat + 2 ∧
      ∀ u : State, u.status = .running → u.stack = t.stack → fetch u = some 0x00EE#16 →
        ∃ v, step u = .next v ∧ v.status = .running ∧ v.stack = s.stack ∧ v.pc.toNat = s.pc.toNat + 2

/-- The source's round trip (44_family_F.md R104, R105): loading the block that was stored gives V0..Vx back and leaves
the registers above. -/
def Obligations.LoadAfterStoreRestoresRegisters : Prop :=
  ∀ (x : RegIdx) (s : State), s.i.toNat + x.val < 4096 → ∃ t, exec (.storeBlock x) s = .next t ∧
    ∀ u : State, u.i = s.i → (∀ a, readByte u.mem a = readByte t.mem a) → ∃ v, exec (.loadBlock x) u = .next v ∧
      (∀ k : RegIdx, k ≤ x → v.reg k = s.reg k) ∧ ∀ k : RegIdx, x < k → v.reg k = u.reg k

/-- 20_memory.md R51: a byte written by Fx55 is seen by every later fetch, the very next one included: a word built of
two neighbouring registers is fetched from where it was stored. -/
def Obligations.StoredWordIsFetched : Prop :=
  ∀ (s : State) (x j k : RegIdx), s.status = .running → fetch s = some (encode (.storeBlock x)) →
    s.i.toNat + x.val < 4096 → k.val = j.val + 1 → k ≤ x → ∃ t, step s = .next t ∧
      ∀ u : State, (∀ a, readByte u.mem a = readByte t.mem a) → u.pc.toNat = s.i.toNat + j.val →
        fetch u = some (wordOfBytes (s.reg j) (s.reg k))

/-! ### The reference sequencer's reset and waits -/

/-- R116, R136: with reset asserted every other phase, HALT included, goes to RESET with the reset state, and RESET holds
what it has. With reset released RESET goes on to the fetch and nothing enters it; HALT holds the state and the record; it
is entered by FETCH_HI where the fetch is out of range and by EXEC where the instruction faults, each with the faulted
state, and by nothing else. Outside RESET a load is refused (R140). That a display is attached with the line is the
model's form of it (assumption 19). -/
def Obligations.SequencerResetAndHalt : Prop :=
  ∀ (inp : SequencerInputs) (q : Sequencer),
    (∀ present, inp.reset = .asserted present →
      (q.phase ≠ .reset → (phaseStep inp q).phase = .reset ∧ (phaseStep inp q).core = hostReset present q.core) ∧
      (q.phase = .reset → phaseStep inp q = q)) ∧
    (inp.reset = .released →
      (q.phase = .reset → (phaseStep inp q).phase = .fetchHi ∧ (phaseStep inp q).core = q.core) ∧
      (phaseStep inp q).phase ≠ .reset ∧
      (q.phase = .halt → phaseStep inp q = q) ∧
      (q.phase = .fetchHi → fetch q.core = none →
        (phaseStep inp q).phase = .halt ∧ (phaseStep inp q).core = fetchFault q.core) ∧
      (∀ t r, q.phase = .exec → q.micro = none → q.core.status = .running →
        exec (decodeWord q.ir) q.core = .next t → t.status = .faulted r →
        (phaseStep inp q).phase = .halt ∧ (phaseStep inp q).core = t) ∧
      (q.phase ≠ .halt → (phaseStep inp q).phase = .halt →
        (q.phase = .fetchHi ∨ q.phase = .exec) ∧ ∃ r, (phaseStep inp q).core.status = .faulted r)) ∧
    ∀ image, q.phase ≠ .reset → sequencerLoad image q = .refused .loadOutsideWindow

/-- R116, 70_reset_and_hazards.md R141: from any phase, RESET included where it holds a reset state that nothing was loaded
into, reset asserted, an image loaded in RESET, reset held and released bring the sequencer to FETCH_HI at 0x200, running,
with the image at 0x200 and zeros elsewhere. The clauses on the display are the model's choice (assumption 19): it is
fixed where RESET is entered, whatever the line carries while RESET is held. -/
def Obligations.SequencerBoots : Prop :=
  ∀ (q : Sequencer) (on held off : SequencerInputs) (present again : Bool) (image : List Byte),
    (q.phase = .reset → (∃ p, q.core = State.resetWith p) ∨ ∃ d u, q.core = hostReset d u) →
    on.reset = .asserted present → held.reset = .asserted again → off.reset = .released →
    image.length ≤ 3584 → ∃ u, sequencerLoad image (phaseStep on q) = .next u ∧ u.phase = .reset ∧
      (phaseStep off (phaseStep held u)).phase = .fetchHi ∧
      (phaseStep off (phaseStep held u)).core.pc = 0x0200#16 ∧
      (phaseStep off (phaseStep held u)).core.status = .running ∧
      (q.phase ≠ .reset → (phaseStep off (phaseStep held u)).core.params.displayPresent = present) ∧
      (q.phase = .reset → (phaseStep off (phaseStep held u)).core.params = q.core.params) ∧
      ∀ a, readByte (phaseStep off (phaseStep held u)).core.mem a =
        if 0x200 ≤ a then image.getD (a - 0x200) 0x00#8 else 0x00#8

/-- R116: EXEC waits for the random byte of Cxnn, and for the clear of 00E0 with a display, and holds everything while it
waits; once answered it has the instruction's effect and goes to ADVANCE. Without a display 00E0 waits for nothing. -/
def Obligations.SequencerWaits : Prop :=
  ∀ (inp : SequencerInputs) (q : Sequencer), inp.reset = .released → q.phase = .exec → q.core.status = .running →
    (∀ x nn, decodeWord q.ir = .rnd x nn →
      (inp.rndValid = false → phaseStep inp q = q) ∧
      (inp.rndValid = true → (phaseStep inp q).phase = .advance ∧
        exec (.rnd x nn) q.core = .next (phaseStep inp q).core)) ∧
    (decodeWord q.ir = .cls →
      (q.core.params.displayPresent = true → inp.clrDone = false → phaseStep inp q = q) ∧
      (q.core.params.displayPresent = false ∨ inp.clrDone = true → (phaseStep inp q).phase = .advance ∧
        exec .cls q.core = .next (phaseStep inp q).core))
end

