-- ==== Sys2Proof/Laws/Decode.lean ====
section
/-! SUPPORT. The fields of an assembled word, and a word put together again from its fields (30_encoding.md R54, R55).
The provers cite these instead of unfolding the bit slices. -/
namespace Sys2Proof

@[simp] theorem regOfBits_regBits (x : RegIdx) : regOfBits (regBits x) = x := by
  apply Fin.ext
  simp only [regOfBits, regBits, BitVec.toNat_ofNat]
  omega

@[simp] theorem regBits_regOfBits (b : Nibble) : regBits (regOfBits b) = b := by
  simp only [regOfBits, regBits, BitVec.ofNat_toNat, BitVec.setWidth_eq]

/-! ### Slices of a concatenation, at any widths -/

theorem slice_high {a b : Nat} (g : BitVec a) (r : BitVec b) : (g ++ r).extractLsb' b a = g := by
  ext k hk
  simp [BitVec.getLsbD_append, hk]

theorem slice_low {a b : Nat} (g : BitVec a) (r : BitVec b) : (g ++ r).extractLsb' 0 b = r := by
  ext k hk
  simp [BitVec.getLsbD_append, hk]

theorem slice_within {a b : Nat} (g : BitVec a) (r : BitVec b) (start len : Nat)
    (h : start + len ≤ b) : (g ++ r).extractLsb' start len = r.extractLsb' start len := by
  ext k hk
  have : start + k < b := by omega
  simp [BitVec.getLsbD_append, this]

theorem concat_slices {a b : Nat} (w : BitVec (a + b)) :
    w.extractLsb' b a ++ w.extractLsb' 0 b = w := by
  ext k hk
  simp only [BitVec.getElem_append, BitVec.getElem_extractLsb']
  split
  · simp [BitVec.getLsbD_eq_getElem, hk]
  · have : b + (k - b) = k := by omega
    simp [this, BitVec.getLsbD_eq_getElem, hk]

theorem slice_slice {w : Nat} (v : BitVec w) (outer start len width : Nat) (h : start + len ≤ width) :
    (v.extractLsb' outer width).extractLsb' start len = v.extractLsb' (outer + start) len := by
  ext k hk
  have : start + k < width := by omega
  simp [this, Nat.add_assoc]

/-! ### Fields of an assembled word -/

section fields
variable (f : Nibble) (nnn : Addr12) (x y : RegIdx) (nn : Byte) (n : Nibble)

theorem slice_of_wordNNN (start len : Nat) (h : start + len ≤ 12) :
    (wordNNN f nnn).extractLsb' start len = nnn.extractLsb' start len :=
  slice_within f nnn start len h

@[simp] theorem familyField_wordNNN : familyField (wordNNN f nnn) = f := slice_high f nnn
@[simp] theorem nnnField_wordNNN : nnnField (wordNNN f nnn) = nnn := slice_low f nnn

@[simp] theorem familyField_wordXNN : familyField (wordXNN f x nn) = f := slice_high f _

@[simp] theorem nnField_wordXNN : nnField (wordXNN f x nn) = nn :=
  (slice_of_wordNNN f _ 0 8 (by omega)).trans (slice_low (regBits x) nn)

@[simp] theorem xField_wordXNN : xField (wordXNN f x nn) = x :=
  (congrArg regOfBits ((slice_of_wordNNN f _ 8 4 (by omega)).trans (slice_high (regBits x) nn))).trans
    (regOfBits_regBits x)

@[simp] theorem familyField_wordXYN : familyField (wordXYN f x y n) = f := slice_high f _

@[simp] theorem xField_wordXYN : xField (wordXYN f x y n) = x := xField_wordXNN f x _

theorem nnField_wordXYN : nnField (wordXYN f x y n) = (regBits y ++ n : Byte) := nnField_wordXNN f x _

@[simp] theorem yField_wordXYN : yField (wordXYN f x y n) = y := by
  have h := slice_slice (wordXYN f x y n) 0 4 4 8 (by omega)
  have e : (wordXYN f x y n).extractLsb' 0 8 = (regBits y ++ n : Byte) := nnField_wordXYN f x y n
  rw [e] at h
  exact (congrArg regOfBits (h.symm.trans (slice_high (regBits y) n))).trans (regOfBits_regBits y)

@[simp] theorem nField_wordXYN : nField (wordXYN f x y n) = n := by
  have h := slice_slice (wordXYN f x y n) 0 0 4 8 (by omega)
  have e : (wordXYN f x y n).extractLsb' 0 8 = (regBits y ++ n : Byte) := nnField_wordXYN f x y n
  rw [e] at h
  exact h.symm.trans (slice_low (regBits y) n)

end fields

/-! ### An assembled word as a number -/

theorem wordNNN_toNat (f : Nibble) (nnn : Addr12) : (wordNNN f nnn).toNat = f.toNat * 4096 + nnn.toNat := by
  have h : f.toNat <<< 12 + nnn.toNat = f.toNat <<< 12 ||| nnn.toNat :=
    Nat.shiftLeft_add_eq_or_of_lt nnn.isLt f.toNat
  rw [wordNNN, BitVec.toNat_append, ← h, Nat.shiftLeft_eq]

theorem wordXNN_toNat (f : Nibble) (x : RegIdx) (nn : Byte) :
    (wordXNN f x nn).toNat = f.toNat * 4096 + (x.val * 256 + nn.toNat) := by
  have h : (regBits x).toNat <<< 8 + nn.toNat = (regBits x).toNat <<< 8 ||| nn.toNat :=
    Nat.shiftLeft_add_eq_or_of_lt nn.isLt _
  have e : (regBits x ++ nn : Addr12).toNat = x.val * 256 + nn.toNat := by
    refine (BitVec.toNat_append _ _).trans ?_
    rw [← h, Nat.shiftLeft_eq]
    simp [regBits]
  have hn := wordNNN_toNat f (regBits x ++ nn : Addr12)
  rw [e] at hn
  exact hn

/-! ### A word from its fields -/

section reassembly
variable (w : Word)

theorem wordNNN_fields : wordNNN (familyField w) (nnnField w) = w := concat_slices (a := 4) (b := 12) w

theorem nnn_of_x_nn : (regBits (xField w) ++ nnField w : Addr12) = nnnField w := by
  have h := concat_slices (a := 4) (b := 8) (nnnField w)
  have e1 : (nnnField w).extractLsb' 8 4 = w.extractLsb' 8 4 := slice_slice w 0 8 4 12 (by omega)
  have e2 : (nnnField w).extractLsb' 0 8 = nnField w := slice_slice w 0 0 8 12 (by omega)
  rw [e1, e2] at h
  simpa only [xField, regBits_regOfBits] using h

theorem nn_of_y_n : (regBits (yField w) ++ nField w : Byte) = nnField w := by
  have h := concat_slices (a := 4) (b := 4) (nnField w)
  have e1 : (nnField w).extractLsb' 4 4 = w.extractLsb' 4 4 := slice_slice w 0 4 4 8 (by omega)
  have e2 : (nnField w).extractLsb' 0 4 = nField w := slice_slice w 0 0 4 8 (by omega)
  rw [e1, e2] at h
  simpa only [yField, regBits_regOfBits] using h

theorem wordXNN_fields : wordXNN (familyField w) (xField w) (nnField w) = w := by
  rw [wordXNN, nnn_of_x_nn]
  exact wordNNN_fields w

theorem wordXYN_fields : wordXYN (familyField w) (xField w) (yField w) (nField w) = w := by
  rw [wordXYN, nn_of_y_n]
  exact wordXNN_fields w

end reassembly

/-- The two bytes of a word, high byte first, give it back (20_memory.md R41). -/
@[simp] theorem wordOfBytes_bytes (w : Word) :
    wordOfBytes (w.extractLsb' 8 8) (w.extractLsb' 0 8) = w := concat_slices (a := 8) (b := 8) w

/-- A fetched word as a number: `(high << 8) | low` (20_memory.md R41). -/
theorem wordOfBytes_toNat (hi lo : Byte) : (wordOfBytes hi lo).toNat = hi.toNat * 256 + lo.toNat := by
  have h : hi.toNat <<< 8 + lo.toNat = hi.toNat <<< 8 ||| lo.toNat :=
    Nat.shiftLeft_add_eq_or_of_lt lo.isLt hi.toNat
  rw [wordOfBytes, BitVec.toNat_append, ← h, Nat.shiftLeft_eq]

end Sys2Proof
end

