-- ==== Sys2Proof/Laws/Memory.lean ====
section
/-! SUPPORT. Memory: what a read gives after a write, and that every operation keeps the canonical form. -/
namespace Sys2Proof.Machine

theorem readByte_eraseCell (a b : Nat) (m : Memory) :
    readByte (eraseCell a m) b = if b = a then unlistedByte else readByte m b := by
  induction m with
  | nil => simp [eraseCell, readByte]
  | cons c m ih =>
    by_cases hc : c.1 = a
    · have : eraseCell a (c :: m) = eraseCell a m := by simp [eraseCell, hc]
      rw [this, ih]
      by_cases hb : b = a <;> grind [readByte]
    · have : eraseCell a (c :: m) = c :: eraseCell a m := by simp [eraseCell, hc]
      rw [this]
      grind [readByte]

theorem readByte_insertCell (a b : Nat) (v : Byte) (m : Memory) (h : ∀ c ∈ m, c.1 ≠ a) :
    readByte (insertCell a v m) b = if b = a then v else readByte m b := by
  induction m with
  | nil => grind [insertCell, readByte]
  | cons c m ih =>
    have hm : ∀ c ∈ m, c.1 ≠ a := fun d hd => h d (List.mem_cons_of_mem _ hd)
    have hc : c.1 ≠ a := h c List.mem_cons_self
    grind [insertCell, readByte]

theorem eraseCell_keys (a : Nat) (m : Memory) : ∀ c ∈ eraseCell a m, c.1 ≠ a := by
  intro c hc
  simpa using (List.mem_filter.1 hc).2

/-- A read after a write: the byte written at its address, every other byte as before (20_memory.md R45, R48). A write
out of range does nothing (R40). No canonical form is needed. -/
theorem readByte_writeByte (m : Memory) (a b : Nat) (v : Byte) :
    readByte (writeByte m a v) b = if b = a ∧ a < memSize then v else readByte m b := by
  unfold writeByte
  by_cases ha : a < memSize
  · by_cases hv : v = unlistedByte
    · simp only [ha, hv, if_true, readByte_eraseCell, and_true]
    · simp only [ha, hv, if_true, if_false, and_true]
      rw [readByte_insertCell _ _ _ _ (eraseCell_keys a m), readByte_eraseCell]
      by_cases hb : b = a <;> simp [hb]
  · simp [ha]

theorem eraseCell_wf {m : Memory} (a : Nat) (h : Memory.wf m) : Memory.wf (eraseCell a m) :=
  ⟨h.1.filter _, fun c hc => h.2 c (List.mem_filter.1 hc).1⟩

theorem mem_insertCell {a : Nat} {v : Byte} {m : Memory} {c : Host.Cell}
    (h : c ∈ insertCell a v m) : c = (a, v) ∨ c ∈ m := by
  induction m with
  | nil => simpa [insertCell] using h
  | cons d m ih => grind [insertCell]

theorem insertCell_wf {a : Nat} {v : Byte} {m : Memory} (ha : a < memSize) (hv : v ≠ unlistedByte)
    (hk : ∀ c ∈ m, c.1 ≠ a) (h : Memory.wf m) : Memory.wf (insertCell a v m) := by
  refine ⟨?_, fun c hc => ?_⟩
  · induction m with
    | nil => simp [insertCell]
    | cons d m ih =>
      have hd : d.1 ≠ a := hk d List.mem_cons_self
      have hdm := List.pairwise_cons.1 h.1
      have hm : Memory.wf m := ⟨hdm.2, fun c hc => h.2 c (List.mem_cons_of_mem _ hc)⟩
      have hkm : ∀ c ∈ m, c.1 ≠ a := fun c hc => hk c (List.mem_cons_of_mem _ hc)
      by_cases hlt : a < d.1
      · simp only [insertCell, hlt, if_true, List.pairwise_cons]
        refine ⟨fun c hc => ?_, hdm⟩
        rcases List.mem_cons.1 hc with rfl | hc
        · exact hlt
        · exact hlt.trans (hdm.1 c hc)
      · simp only [insertCell, hlt, if_false, List.pairwise_cons]
        refine ⟨fun c hc => ?_, ih hkm hm⟩
        rcases mem_insertCell hc with rfl | hc
        · show d.1 < a
          omega
        · exact hdm.1 c hc
  · rcases mem_insertCell hc with rfl | hc
    · exact ⟨ha, hv⟩
    · exact h.2 c hc

/-- Every write keeps the canonical form. -/
theorem writeByte_wf {m : Memory} (a : Nat) (v : Byte) (h : Memory.wf m) : Memory.wf (writeByte m a v) := by
  unfold writeByte
  by_cases ha : a < memSize
  · by_cases hv : v = unlistedByte
    · simpa only [ha, hv, if_true] using eraseCell_wf a h
    · simpa only [ha, hv, if_true, if_false] using
        insertCell_wf ha hv (eraseCell_keys a m) (eraseCell_wf a h)
  · simpa only [ha, if_false] using h

theorem writeBytes_wf {m : Memory} (a : Nat) (bs : List Byte) (h : Memory.wf m) :
    Memory.wf (writeBytes m a bs) := by
  induction bs generalizing m a with
  | nil => exact h
  | cons b bs ih => exact ih (a + 1) (writeByte_wf a b h)

/-- Consecutive bytes, in range: byte k at `a + k`, everything else as before (70_reset_and_hazards.md R138). -/
theorem readByte_writeBytes (m : Memory) (a b : Nat) (bs : List Byte) (h : a + bs.length ≤ memSize) :
    readByte (writeBytes m a bs) b =
      if a ≤ b ∧ b < a + bs.length then bs.getD (b - a) unlistedByte else readByte m b := by
  induction bs generalizing m a with
  | nil => simp [writeBytes]
  | cons v bs ih =>
    simp only [List.length_cons] at h ⊢
    have := ih (writeByte m a v) (a + 1) (by omega)
    simp only [writeBytes, this, readByte_writeByte]
    by_cases hb : b = a
    · subst hb
      have h2 : b < memSize := by omega
      simp [h2]
    · by_cases hr : a + 1 ≤ b ∧ b < a + 1 + bs.length
      · have h3 : a ≤ b ∧ b < a + (bs.length + 1) := by omega
        obtain ⟨k, rfl⟩ := Nat.exists_eq_add_of_le hr.1
        simp only [hr, h3, and_self, if_true]
        have e1 : a + 1 + k - (a + 1) = k := by omega
        have e2 : a + 1 + k - a = k + 1 := by omega
        rw [e1, e2, List.getD_cons_succ]
      · have h3 : ¬ (a ≤ b ∧ b < a + (bs.length + 1)) := by omega
        rw [if_neg hr, if_neg h3, if_neg fun h4 => hb h4.1]

/-- The memory of the reset state has the canonical form. -/
theorem resetWith_mem_wf (p : Params) : Memory.wf (State.resetWith p).mem :=
  ⟨List.Pairwise.nil, fun _ hc => nomatch hc⟩

end Sys2Proof.Machine
end

