-- ==== Sys2Proof/Laws/State.lean ====
section
/-! SUPPORT. What each named update of the state does to each field: one lemma a field and update, so that no later
proof unfolds a record update. -/
namespace Sys2Proof.Machine

variable (s : State)

/-! ### `setReg` -/

@[simp] theorem State.setReg_v (r : RegIdx) (b : Byte) : (s.setReg r b).v = s.v.set r.val b := rfl
@[simp] theorem State.setReg_i (r : RegIdx) (b : Byte) : (s.setReg r b).i = s.i := rfl
@[simp] theorem State.setReg_pc (r : RegIdx) (b : Byte) : (s.setReg r b).pc = s.pc := rfl
@[simp] theorem State.setReg_stack (r : RegIdx) (b : Byte) : (s.setReg r b).stack = s.stack := rfl
@[simp] theorem State.setReg_dt (r : RegIdx) (b : Byte) : (s.setReg r b).dt = s.dt := rfl
@[simp] theorem State.setReg_st (r : RegIdx) (b : Byte) : (s.setReg r b).st = s.st := rfl
@[simp] theorem State.setReg_mem (r : RegIdx) (b : Byte) : (s.setReg r b).mem = s.mem := rfl
@[simp] theorem State.setReg_screen (r : RegIdx) (b : Byte) : (s.setReg r b).screen = s.screen := rfl
@[simp] theorem State.setReg_events (r : RegIdx) (b : Byte) : (s.setReg r b).events = s.events := rfl
@[simp] theorem State.setReg_status (r : RegIdx) (b : Byte) : (s.setReg r b).status = s.status := rfl
@[simp] theorem State.setReg_params (r : RegIdx) (b : Byte) : (s.setReg r b).params = s.params := rfl
@[simp] theorem State.setReg_rndCount (r : RegIdx) (b : Byte) : (s.setReg r b).rndCount = s.rndCount := rfl
@[simp] theorem State.setReg_boundary (r : RegIdx) (b : Byte) : (s.setReg r b).boundary = s.boundary := rfl
@[simp] theorem State.setReg_loading (r : RegIdx) (b : Byte) : (s.setReg r b).loading = s.loading := rfl

/-! ### `setI` -/

@[simp] theorem State.setI_v (a : Word) : (s.setI a).v = s.v := rfl
@[simp] theorem State.setI_i (a : Word) : (s.setI a).i = a := rfl
@[simp] theorem State.setI_pc (a : Word) : (s.setI a).pc = s.pc := rfl
@[simp] theorem State.setI_stack (a : Word) : (s.setI a).stack = s.stack := rfl
@[simp] theorem State.setI_dt (a : Word) : (s.setI a).dt = s.dt := rfl
@[simp] theorem State.setI_st (a : Word) : (s.setI a).st = s.st := rfl
@[simp] theorem State.setI_mem (a : Word) : (s.setI a).mem = s.mem := rfl
@[simp] theorem State.setI_screen (a : Word) : (s.setI a).screen = s.screen := rfl
@[simp] theorem State.setI_events (a : Word) : (s.setI a).events = s.events := rfl
@[simp] theorem State.setI_status (a : Word) : (s.setI a).status = s.status := rfl
@[simp] theorem State.setI_params (a : Word) : (s.setI a).params = s.params := rfl
@[simp] theorem State.setI_rndCount (a : Word) : (s.setI a).rndCount = s.rndCount := rfl
@[simp] theorem State.setI_boundary (a : Word) : (s.setI a).boundary = s.boundary := rfl
@[simp] theorem State.setI_loading (a : Word) : (s.setI a).loading = s.loading := rfl

/-! ### `setPc` -/

@[simp] theorem State.setPc_v (a : Word) : (s.setPc a).v = s.v := rfl
@[simp] theorem State.setPc_i (a : Word) : (s.setPc a).i = s.i := rfl
@[simp] theorem State.setPc_pc (a : Word) : (s.setPc a).pc = a := rfl
@[simp] theorem State.setPc_stack (a : Word) : (s.setPc a).stack = s.stack := rfl
@[simp] theorem State.setPc_dt (a : Word) : (s.setPc a).dt = s.dt := rfl
@[simp] theorem State.setPc_st (a : Word) : (s.setPc a).st = s.st := rfl
@[simp] theorem State.setPc_mem (a : Word) : (s.setPc a).mem = s.mem := rfl
@[simp] theorem State.setPc_screen (a : Word) : (s.setPc a).screen = s.screen := rfl
@[simp] theorem State.setPc_events (a : Word) : (s.setPc a).events = s.events := rfl
@[simp] theorem State.setPc_status (a : Word) : (s.setPc a).status = s.status := rfl
@[simp] theorem State.setPc_params (a : Word) : (s.setPc a).params = s.params := rfl
@[simp] theorem State.setPc_rndCount (a : Word) : (s.setPc a).rndCount = s.rndCount := rfl
@[simp] theorem State.setPc_boundary (a : Word) : (s.setPc a).boundary = s.boundary := rfl
@[simp] theorem State.setPc_loading (a : Word) : (s.setPc a).loading = s.loading := rfl

/-! ### `setDT` -/

@[simp] theorem State.setDT_v (b : Byte) : (s.setDT b).v = s.v := rfl
@[simp] theorem State.setDT_i (b : Byte) : (s.setDT b).i = s.i := rfl
@[simp] theorem State.setDT_pc (b : Byte) : (s.setDT b).pc = s.pc := rfl
@[simp] theorem State.setDT_stack (b : Byte) : (s.setDT b).stack = s.stack := rfl
@[simp] theorem State.setDT_dt (b : Byte) : (s.setDT b).dt = b := rfl
@[simp] theorem State.setDT_st (b : Byte) : (s.setDT b).st = s.st := rfl
@[simp] theorem State.setDT_mem (b : Byte) : (s.setDT b).mem = s.mem := rfl
@[simp] theorem State.setDT_screen (b : Byte) : (s.setDT b).screen = s.screen := rfl
@[simp] theorem State.setDT_events (b : Byte) : (s.setDT b).events = s.events := rfl
@[simp] theorem State.setDT_status (b : Byte) : (s.setDT b).status = s.status := rfl
@[simp] theorem State.setDT_params (b : Byte) : (s.setDT b).params = s.params := rfl
@[simp] theorem State.setDT_rndCount (b : Byte) : (s.setDT b).rndCount = s.rndCount := rfl
@[simp] theorem State.setDT_boundary (b : Byte) : (s.setDT b).boundary = s.boundary := rfl
@[simp] theorem State.setDT_loading (b : Byte) : (s.setDT b).loading = s.loading := rfl

/-! ### `setST` -/

@[simp] theorem State.setST_v (b : Byte) : (s.setST b).v = s.v := rfl
@[simp] theorem State.setST_i (b : Byte) : (s.setST b).i = s.i := rfl
@[simp] theorem State.setST_pc (b : Byte) : (s.setST b).pc = s.pc := rfl
@[simp] theorem State.setST_stack (b : Byte) : (s.setST b).stack = s.stack := rfl
@[simp] theorem State.setST_dt (b : Byte) : (s.setST b).dt = s.dt := rfl
@[simp] theorem State.setST_st (b : Byte) : (s.setST b).st = b := rfl
@[simp] theorem State.setST_mem (b : Byte) : (s.setST b).mem = s.mem := rfl
@[simp] theorem State.setST_screen (b : Byte) : (s.setST b).screen = s.screen := rfl
@[simp] theorem State.setST_events (b : Byte) : (s.setST b).events = s.events := rfl
@[simp] theorem State.setST_status (b : Byte) : (s.setST b).status = s.status := rfl
@[simp] theorem State.setST_params (b : Byte) : (s.setST b).params = s.params := rfl
@[simp] theorem State.setST_rndCount (b : Byte) : (s.setST b).rndCount = s.rndCount := rfl
@[simp] theorem State.setST_boundary (b : Byte) : (s.setST b).boundary = s.boundary := rfl
@[simp] theorem State.setST_loading (b : Byte) : (s.setST b).loading = s.loading := rfl

/-! ### `setMem` -/

@[simp] theorem State.setMem_v (m : Memory) : (s.setMem m).v = s.v := rfl
@[simp] theorem State.setMem_i (m : Memory) : (s.setMem m).i = s.i := rfl
@[simp] theorem State.setMem_pc (m : Memory) : (s.setMem m).pc = s.pc := rfl
@[simp] theorem State.setMem_stack (m : Memory) : (s.setMem m).stack = s.stack := rfl
@[simp] theorem State.setMem_dt (m : Memory) : (s.setMem m).dt = s.dt := rfl
@[simp] theorem State.setMem_st (m : Memory) : (s.setMem m).st = s.st := rfl
@[simp] theorem State.setMem_mem (m : Memory) : (s.setMem m).mem = m := rfl
@[simp] theorem State.setMem_screen (m : Memory) : (s.setMem m).screen = s.screen := rfl
@[simp] theorem State.setMem_events (m : Memory) : (s.setMem m).events = s.events := rfl
@[simp] theorem State.setMem_status (m : Memory) : (s.setMem m).status = s.status := rfl
@[simp] theorem State.setMem_params (m : Memory) : (s.setMem m).params = s.params := rfl
@[simp] theorem State.setMem_rndCount (m : Memory) : (s.setMem m).rndCount = s.rndCount := rfl
@[simp] theorem State.setMem_boundary (m : Memory) : (s.setMem m).boundary = s.boundary := rfl
@[simp] theorem State.setMem_loading (m : Memory) : (s.setMem m).loading = s.loading := rfl

/-! ### `pushStack` -/

@[simp] theorem State.pushStack_v (a : Word) : (s.pushStack a).v = s.v := rfl
@[simp] theorem State.pushStack_i (a : Word) : (s.pushStack a).i = s.i := rfl
@[simp] theorem State.pushStack_pc (a : Word) : (s.pushStack a).pc = s.pc := rfl
@[simp] theorem State.pushStack_stack (a : Word) : (s.pushStack a).stack = s.stack ++ [a] := rfl
@[simp] theorem State.pushStack_dt (a : Word) : (s.pushStack a).dt = s.dt := rfl
@[simp] theorem State.pushStack_st (a : Word) : (s.pushStack a).st = s.st := rfl
@[simp] theorem State.pushStack_mem (a : Word) : (s.pushStack a).mem = s.mem := rfl
@[simp] theorem State.pushStack_screen (a : Word) : (s.pushStack a).screen = s.screen := rfl
@[simp] theorem State.pushStack_events (a : Word) : (s.pushStack a).events = s.events := rfl
@[simp] theorem State.pushStack_status (a : Word) : (s.pushStack a).status = s.status := rfl
@[simp] theorem State.pushStack_params (a : Word) : (s.pushStack a).params = s.params := rfl
@[simp] theorem State.pushStack_rndCount (a : Word) : (s.pushStack a).rndCount = s.rndCount := rfl
@[simp] theorem State.pushStack_boundary (a : Word) : (s.pushStack a).boundary = s.boundary := rfl
@[simp] theorem State.pushStack_loading (a : Word) : (s.pushStack a).loading = s.loading := rfl

/-! ### `dropStack` -/

@[simp] theorem State.dropStack_v : s.dropStack.v = s.v := rfl
@[simp] theorem State.dropStack_i : s.dropStack.i = s.i := rfl
@[simp] theorem State.dropStack_pc : s.dropStack.pc = s.pc := rfl
@[simp] theorem State.dropStack_stack : s.dropStack.stack = s.stack.dropLast := rfl
@[simp] theorem State.dropStack_dt : s.dropStack.dt = s.dt := rfl
@[simp] theorem State.dropStack_st : s.dropStack.st = s.st := rfl
@[simp] theorem State.dropStack_mem : s.dropStack.mem = s.mem := rfl
@[simp] theorem State.dropStack_screen : s.dropStack.screen = s.screen := rfl
@[simp] theorem State.dropStack_events : s.dropStack.events = s.events := rfl
@[simp] theorem State.dropStack_status : s.dropStack.status = s.status := rfl
@[simp] theorem State.dropStack_params : s.dropStack.params = s.params := rfl
@[simp] theorem State.dropStack_rndCount : s.dropStack.rndCount = s.rndCount := rfl
@[simp] theorem State.dropStack_boundary : s.dropStack.boundary = s.boundary := rfl
@[simp] theorem State.dropStack_loading : s.dropStack.loading = s.loading := rfl

/-! ### `reportNI` -/

@[simp] theorem State.reportNI_v (op : Word) : (s.reportNI op).v = s.v := rfl
@[simp] theorem State.reportNI_i (op : Word) : (s.reportNI op).i = s.i := rfl
@[simp] theorem State.reportNI_pc (op : Word) : (s.reportNI op).pc = s.pc := rfl
@[simp] theorem State.reportNI_stack (op : Word) : (s.reportNI op).stack = s.stack := rfl
@[simp] theorem State.reportNI_dt (op : Word) : (s.reportNI op).dt = s.dt := rfl
@[simp] theorem State.reportNI_st (op : Word) : (s.reportNI op).st = s.st := rfl
@[simp] theorem State.reportNI_mem (op : Word) : (s.reportNI op).mem = s.mem := rfl
@[simp] theorem State.reportNI_screen (op : Word) : (s.reportNI op).screen = s.screen := rfl
@[simp] theorem State.reportNI_events (op : Word) :
    (s.reportNI op).events = s.events ++ [.notImplemented s.pc op] :=
  rfl
@[simp] theorem State.reportNI_status (op : Word) : (s.reportNI op).status = s.status := rfl
@[simp] theorem State.reportNI_params (op : Word) : (s.reportNI op).params = s.params := rfl
@[simp] theorem State.reportNI_rndCount (op : Word) : (s.reportNI op).rndCount = s.rndCount := rfl
@[simp] theorem State.reportNI_boundary (op : Word) : (s.reportNI op).boundary = s.boundary := rfl
@[simp] theorem State.reportNI_loading (op : Word) : (s.reportNI op).loading = s.loading := rfl

/-! ### `countDraw` -/

@[simp] theorem State.countDraw_v : s.countDraw.v = s.v := rfl
@[simp] theorem State.countDraw_i : s.countDraw.i = s.i := rfl
@[simp] theorem State.countDraw_pc : s.countDraw.pc = s.pc := rfl
@[simp] theorem State.countDraw_stack : s.countDraw.stack = s.stack := rfl
@[simp] theorem State.countDraw_dt : s.countDraw.dt = s.dt := rfl
@[simp] theorem State.countDraw_st : s.countDraw.st = s.st := rfl
@[simp] theorem State.countDraw_mem : s.countDraw.mem = s.mem := rfl
@[simp] theorem State.countDraw_screen : s.countDraw.screen = s.screen := rfl
@[simp] theorem State.countDraw_events : s.countDraw.events = s.events := rfl
@[simp] theorem State.countDraw_status : s.countDraw.status = s.status := rfl
@[simp] theorem State.countDraw_params : s.countDraw.params = s.params := rfl
@[simp] theorem State.countDraw_rndCount : s.countDraw.rndCount = s.rndCount + 1 := rfl
@[simp] theorem State.countDraw_boundary : s.countDraw.boundary = s.boundary := rfl
@[simp] theorem State.countDraw_loading : s.countDraw.loading = s.loading := rfl

/-! ### `displayClear` -/

@[simp] theorem State.displayClear_v : s.displayClear.v = s.v := rfl
@[simp] theorem State.displayClear_i : s.displayClear.i = s.i := rfl
@[simp] theorem State.displayClear_pc : s.displayClear.pc = s.pc := rfl
@[simp] theorem State.displayClear_stack : s.displayClear.stack = s.stack := rfl
@[simp] theorem State.displayClear_dt : s.displayClear.dt = s.dt := rfl
@[simp] theorem State.displayClear_st : s.displayClear.st = s.st := rfl
@[simp] theorem State.displayClear_mem : s.displayClear.mem = s.mem := rfl
@[simp] theorem State.displayClear_screen :
    s.displayClear.screen = if s.params.displayPresent then Vector.replicate 2048 false else s.screen :=
  rfl
@[simp] theorem State.displayClear_events :
    s.displayClear.events = if s.params.displayPresent then s.events ++ [.displayClear s.pc] else s.events :=
  rfl
@[simp] theorem State.displayClear_status : s.displayClear.status = s.status := rfl
@[simp] theorem State.displayClear_params : s.displayClear.params = s.params := rfl
@[simp] theorem State.displayClear_rndCount : s.displayClear.rndCount = s.rndCount := rfl
@[simp] theorem State.displayClear_boundary : s.displayClear.boundary = s.boundary := rfl
@[simp] theorem State.displayClear_loading : s.displayClear.loading = s.loading := rfl

/-! ### `takeFault` -/

@[simp] theorem State.takeFault_v (code : FaultCode) (op addr : Option Word) :
    (s.takeFault code op addr).v = s.v :=
  rfl
@[simp] theorem State.takeFault_i (code : FaultCode) (op addr : Option Word) :
    (s.takeFault code op addr).i = s.i :=
  rfl
@[simp] theorem State.takeFault_pc (code : FaultCode) (op addr : Option Word) :
    (s.takeFault code op addr).pc = s.pc :=
  rfl
@[simp] theorem State.takeFault_stack (code : FaultCode) (op addr : Option Word) :
    (s.takeFault code op addr).stack = s.stack :=
  rfl
@[simp] theorem State.takeFault_dt (code : FaultCode) (op addr : Option Word) :
    (s.takeFault code op addr).dt = s.dt :=
  rfl
@[simp] theorem State.takeFault_st (code : FaultCode) (op addr : Option Word) :
    (s.takeFault code op addr).st = s.st :=
  rfl
@[simp] theorem State.takeFault_mem (code : FaultCode) (op addr : Option Word) :
    (s.takeFault code op addr).mem = s.mem :=
  rfl
@[simp] theorem State.takeFault_screen (code : FaultCode) (op addr : Option Word) :
    (s.takeFault code op addr).screen = s.screen :=
  rfl
@[simp] theorem State.takeFault_events (code : FaultCode) (op addr : Option Word) :
    (s.takeFault code op addr).events = s.events :=
  rfl
@[simp] theorem State.takeFault_status (code : FaultCode) (op addr : Option Word) :
    (s.takeFault code op addr).status = .faulted { code := code, pc := s.pc, op := op, addr := addr } :=
  rfl
@[simp] theorem State.takeFault_params (code : FaultCode) (op addr : Option Word) :
    (s.takeFault code op addr).params = s.params :=
  rfl
@[simp] theorem State.takeFault_rndCount (code : FaultCode) (op addr : Option Word) :
    (s.takeFault code op addr).rndCount = s.rndCount :=
  rfl
@[simp] theorem State.takeFault_boundary (code : FaultCode) (op addr : Option Word) :
    (s.takeFault code op addr).boundary = s.boundary :=
  rfl
@[simp] theorem State.takeFault_loading (code : FaultCode) (op addr : Option Word) :
    (s.takeFault code op addr).loading = s.loading :=
  rfl

/-! ### The registers as `reg` reads them -/

/-- A write to one register changes no other (10_state.md R18). -/
theorem State.setReg_reg (r k : RegIdx) (b : Byte) :
    (s.setReg r b).reg k = if k = r then b else s.reg k := by
  simp only [State.reg, State.setReg_v, Vector.getElem_set, Fin.ext_iff, eq_comm]

@[simp] theorem State.setReg_reg_self (r : RegIdx) (b : Byte) : (s.setReg r b).reg r = b := by
  simp [State.setReg_reg]

@[simp] theorem State.setI_reg (a : Word) (k : RegIdx) : (s.setI a).reg k = s.reg k := rfl
@[simp] theorem State.setPc_reg (a : Word) (k : RegIdx) : (s.setPc a).reg k = s.reg k := rfl
@[simp] theorem State.setDT_reg (b : Byte) (k : RegIdx) : (s.setDT b).reg k = s.reg k := rfl
@[simp] theorem State.setST_reg (b : Byte) (k : RegIdx) : (s.setST b).reg k = s.reg k := rfl
@[simp] theorem State.setMem_reg (m : Memory) (k : RegIdx) : (s.setMem m).reg k = s.reg k := rfl
@[simp] theorem State.pushStack_reg (a : Word) (k : RegIdx) : (s.pushStack a).reg k = s.reg k := rfl
@[simp] theorem State.dropStack_reg (k : RegIdx) : s.dropStack.reg k = s.reg k := rfl
@[simp] theorem State.reportNI_reg (op : Word) (k : RegIdx) : (s.reportNI op).reg k = s.reg k := rfl
@[simp] theorem State.countDraw_reg (k : RegIdx) : s.countDraw.reg k = s.reg k := rfl
@[simp] theorem State.displayClear_reg (k : RegIdx) : s.displayClear.reg k = s.reg k := rfl
@[simp] theorem State.takeFault_reg (code : FaultCode) (op addr : Option Word) (k : RegIdx) : (s.takeFault code op addr).reg k = s.reg k := rfl

/-- Two states with the same registers as `reg` reads them have the same register file. -/
theorem State.v_eq_of_reg (t : State) (h : ∀ k, t.reg k = s.reg k) : t.v = s.v :=
  Vector.ext fun k hk => h ⟨k, hk⟩

/-! ### The state after reset -/

@[simp] theorem State.resetWith_i (p : Params) : (State.resetWith p).i = 0x0000#16 := rfl
@[simp] theorem State.resetWith_pc (p : Params) : (State.resetWith p).pc = 0x0200#16 := rfl
@[simp] theorem State.resetWith_stack (p : Params) : (State.resetWith p).stack = [] := rfl
@[simp] theorem State.resetWith_dt (p : Params) : (State.resetWith p).dt = 0x00#8 := rfl
@[simp] theorem State.resetWith_st (p : Params) : (State.resetWith p).st = 0x00#8 := rfl
@[simp] theorem State.resetWith_mem (p : Params) : (State.resetWith p).mem = [] := rfl
@[simp] theorem State.resetWith_events (p : Params) : (State.resetWith p).events = [] := rfl
@[simp] theorem State.resetWith_status (p : Params) : (State.resetWith p).status = .running := rfl
@[simp] theorem State.resetWith_params (p : Params) : (State.resetWith p).params = p := rfl
@[simp] theorem State.resetWith_rndCount (p : Params) : (State.resetWith p).rndCount = 0 := rfl
@[simp] theorem State.resetWith_boundary (p : Params) : (State.resetWith p).boundary = 0 := rfl
@[simp] theorem State.resetWith_loading (p : Params) : (State.resetWith p).loading = .accepting := rfl

@[simp] theorem State.resetWith_reg (p : Params) (k : RegIdx) : (State.resetWith p).reg k = 0x00#8 := by
  simp only [State.reg, State.resetWith, Vector.getElem_replicate]

@[simp] theorem State.resetWith_pixel (p : Params) (c : Fin 64) (r : Fin 32) :
    (State.resetWith p).pixel c r = false := by
  simp only [State.pixel, State.resetWith, Vector.getElem_replicate]

end Sys2Proof.Machine
end

