-- ==== Sys2Proof/Laws/Environment.lean ====
section
/-! SUPPORT. The boundary: ticks, reset and the loader. -/
namespace Sys2Proof.Machine

theorem applyTicks_eq (n : Nat) (s : State) :
    applyTicks n s = (s.setDT (applyTicks n s).dt).setST (applyTicks n s).st := by
  unfold applyTicks; split <;> rfl

theorem applyTicks_running (n : Nat) {s : State} (h : s.status = .running) :
    applyTicks n s = (s.setDT (countdownBy n s.dt)).setST (countdownBy n s.st) := by
  unfold applyTicks; split <;> [simp_all; rfl]

theorem tick_running {s : State} (h : s.status = .running) :
    tick s = (s.setDT (countdown s.dt)).setST (countdown s.st) := by
  unfold tick; split <;> [simp_all; rfl]

theorem tick_faulted {s : State} {r : FaultRecord} (h : s.status = .faulted r) : tick s = s := by
  unfold tick; split <;> [rfl; simp_all]

theorem countdownBy_zero (b : Byte) : countdownBy 0 b = b := by
  unfold countdownBy; split <;> simp

theorem countdownBy_succ (n : Nat) (b : Byte) : countdownBy (n + 1) b = countdownBy n (countdown b) := by
  unfold countdownBy countdown
  by_cases h : b = 0#8
  · simp [h]
  · have hb : b.toNat ≠ 0 := fun e => h (BitVec.eq_of_toNat_eq e)
    have hlt := b.isLt
    have hsub : (b - 1#8).toNat = b.toNat - 1 := by
      rw [BitVec.toNat_sub]
      show (2 ^ 8 - 1 + b.toNat) % 2 ^ 8 = b.toNat - 1
      omega
    simp only [h, if_false]
    by_cases h1 : b - 1#8 = 0#8
    · have : b.toNat = 1 := by
        have := congrArg BitVec.toNat h1
        rw [hsub] at this
        simp at this
        omega
      simp only [h1, if_true]
      apply BitVec.eq_of_toNat_eq
      simp [this]
    · simp only [h1, if_false, hsub]
      congr 1
      omega

theorem countdownBy_toNat (n : Nat) (b : Byte) : (countdownBy n b).toNat = b.toNat - n := by
  unfold countdownBy
  have := b.isLt
  split
  · rename_i h; simp [h]
  · simp only [BitVec.toNat_ofNat]; omega

/-- The boundary of a running block: the timers tick a free number of times, the counter goes on, the load window is
shut. -/
theorem atBoundary_running {s : State} (h : s.status = .running) :
    atBoundary s =
      { (s.setDT (countdownBy (Config.ticksAt s.boundary) s.dt)).setST
          (countdownBy (Config.ticksAt s.boundary) s.st) with
        boundary := s.boundary + 1
        loading := .closed } := by
  unfold atBoundary; split <;> [simp_all; rw [applyTicks_running _ h]]

theorem atBoundary_faulted {s : State} {r : FaultRecord} (h : s.status = .faulted r) : atBoundary s = s := by
  unfold atBoundary; split <;> [rfl; simp_all]

theorem countdown_toNat (b : Byte) : (countdown b).toNat = b.toNat - 1 := by
  rw [← countdownBy_toNat 1 b, countdownBy_succ, countdownBy_zero]

/-! The fields the boundary leaves. -/

section boundary
variable (s : State)

@[simp] theorem atBoundary_v : (atBoundary s).v = s.v := by
  unfold atBoundary applyTicks; cases s.status <;> rfl
@[simp] theorem atBoundary_i : (atBoundary s).i = s.i := by
  unfold atBoundary applyTicks; cases s.status <;> rfl
@[simp] theorem atBoundary_pc : (atBoundary s).pc = s.pc := by
  unfold atBoundary applyTicks; cases s.status <;> rfl
@[simp] theorem atBoundary_stack : (atBoundary s).stack = s.stack := by
  unfold atBoundary applyTicks; cases s.status <;> rfl
@[simp] theorem atBoundary_mem : (atBoundary s).mem = s.mem := by
  unfold atBoundary applyTicks; cases s.status <;> rfl
@[simp] theorem atBoundary_screen : (atBoundary s).screen = s.screen := by
  unfold atBoundary applyTicks; cases s.status <;> rfl
@[simp] theorem atBoundary_events : (atBoundary s).events = s.events := by
  unfold atBoundary applyTicks; cases s.status <;> rfl
@[simp] theorem atBoundary_status : (atBoundary s).status = s.status := by
  cases h : s.status with
  | faulted r => rw [atBoundary_faulted h, h]
  | running => rw [atBoundary_running h]; exact h
@[simp] theorem atBoundary_params : (atBoundary s).params = s.params := by
  unfold atBoundary applyTicks; cases s.status <;> rfl
@[simp] theorem atBoundary_rndCount : (atBoundary s).rndCount = s.rndCount := by
  unfold atBoundary applyTicks; cases s.status <;> rfl

end boundary

/-- What a load that succeeds did (70_reset_and_hazards.md R137 to R140). -/
theorem loadImage_next {image : List Byte} {s t : State} (h : loadImage image s = .next t) :
    s.loading = .accepting ∧ s.status = .running ∧ image.length ≤ 3584 ∧
      t = { s with mem := writeBytes s.mem loadOrigin image, loading := .closed } := by
  unfold loadImage at h
  split at h
  · rename_i h1 h2
    split at h
    · cases h
    · rename_i h3
      cases h
      exact ⟨h1, h2, by simpa [loadLimit, memSize, loadOrigin] using h3, rfl⟩
  · cases h

end Sys2Proof.Machine
end

