-- ==== Sys2Proof/Laws/Operands.lean ====
section
/-! SUPPORT. The block transfers of Fx55 and Fx65 in closed form, and the computed operands as numbers. -/
namespace Sys2Proof.Machine

theorem mem_blockRegs {x k : RegIdx} : k ∈ blockRegs x ↔ k ≤ x := by
  simp [blockRegs]

theorem blockInRange_iff {s : State} {x : RegIdx} : blockInRange s x = true ↔ s.i.toNat + x.val < 4096 :=
  decide_eq_true_iff

/-! ### Store -/

/-- A run of stores writes memory and nothing else. -/
theorem foldl_storeReg_eq (ks : List RegIdx) (s : State) :
    ks.foldl storeReg s = s.setMem (ks.foldl storeReg s).mem := by
  induction ks generalizing s with
  | nil => rfl
  | cons k ks ih => rw [List.foldl_cons, ih]; rfl

theorem storeRegs_eq (s : State) (x : RegIdx) : storeRegs s x = s.setMem (storeRegs s x).mem :=
  foldl_storeReg_eq _ s

theorem readByte_foldl_storeReg (ks : List RegIdx) (s : State) (a : Nat)
    (h : ∀ k ∈ ks, blockAddr s k < memSize) :
    readByte (ks.foldl storeReg s).mem a =
      if h : ∃ k ∈ ks, blockAddr s k = a then s.reg ⟨(a - s.i.toNat) % 16, Nat.mod_lt _ (by omega)⟩
      else readByte s.mem a := by
  induction ks generalizing s with
  | nil => simp
  | cons k ks ih =>
    have hk : blockAddr s k < memSize := h k List.mem_cons_self
    rw [List.foldl_cons, ih (storeReg s k) fun j hj => h j (List.mem_cons_of_mem _ hj)]
    have hreg : ∀ j, (storeReg s k).reg j = s.reg j := fun j => rfl
    have hi : (storeReg s k).i = s.i := rfl
    have haddr : ∀ j, blockAddr (storeReg s k) j = blockAddr s j := fun j => rfl
    have hmem : (storeReg s k).mem = writeByte s.mem (blockAddr s k) (s.reg k) := rfl
    simp only [hreg, hi, haddr, hmem, readByte_writeByte, List.mem_cons, exists_eq_or_imp, hk, and_true]
    by_cases h1 : blockAddr s k = a
    · have e : (⟨(a - s.i.toNat) % 16, Nat.mod_lt _ (by omega)⟩ : RegIdx) = k := by
        apply Fin.ext
        have := k.isLt
        simp only [blockAddr] at h1
        simp only
        omega
      simp [h1, e]
    · simp [h1, Ne.symm h1]

/-- Fx55 after its range check: V[k] at I + k for k = 0..x, every other byte as before (44_family_F.md R104). -/
theorem readByte_storeRegs (s : State) (x : RegIdx) (a : Nat) (h : s.i.toNat + x.val < 4096) :
    readByte (storeRegs s x).mem a =
      if s.i.toNat ≤ a ∧ a ≤ s.i.toNat + x.val then
        s.reg ⟨(a - s.i.toNat) % 16, Nat.mod_lt _ (by omega)⟩
      else readByte s.mem a := by
  have hx := x.isLt
  rw [storeRegs, readByte_foldl_storeReg]
  · have : (∃ k ∈ blockRegs x, blockAddr s k = a) ↔ s.i.toNat ≤ a ∧ a ≤ s.i.toNat + x.val := by
      constructor
      · rintro ⟨k, hk, rfl⟩
        have : k.val ≤ x.val := mem_blockRegs.1 hk
        simp only [blockAddr]
        omega
      · intro ha
        refine ⟨⟨a - s.i.toNat, by omega⟩, mem_blockRegs.2 ?_, ?_⟩
        · show a - s.i.toNat ≤ x.val
          omega
        · simp only [blockAddr]
          omega
    by_cases hc : s.i.toNat ≤ a ∧ a ≤ s.i.toNat + x.val
    · rw [dif_pos (this.2 hc), if_pos hc]
    · rw [dif_neg fun h => hc (this.1 h), if_neg hc]
  · intro k hk
    have : k.val ≤ x.val := mem_blockRegs.1 hk
    simp only [blockAddr, memSize]
    omega

theorem foldl_storeReg_wf (ks : List RegIdx) (s : State) (h : Memory.wf s.mem) :
    Memory.wf (ks.foldl storeReg s).mem := by
  induction ks generalizing s with
  | nil => exact h
  | cons k ks ih => exact ih _ (writeByte_wf _ _ h)

theorem storeRegs_wf (s : State) (x : RegIdx) (h : Memory.wf s.mem) : Memory.wf (storeRegs s x).mem :=
  foldl_storeReg_wf _ s h

/-! ### Load -/

/-- The state with its whole register file replaced. -/
def State.withRegs (s : State) (v : Vector Byte 16) : State := { s with v := v }

/-- A run of loads writes registers and nothing else. -/
theorem foldl_loadReg_eq (ks : List RegIdx) (s : State) :
    ks.foldl loadReg s = s.withRegs (ks.foldl loadReg s).v := by
  induction ks generalizing s with
  | nil => rfl
  | cons k ks ih => rw [List.foldl_cons, ih]; rfl

theorem loadRegs_eq (s : State) (x : RegIdx) : loadRegs s x = s.withRegs (loadRegs s x).v :=
  foldl_loadReg_eq _ s

theorem reg_foldl_loadReg (ks : List RegIdx) (s : State) (j : RegIdx) :
    (ks.foldl loadReg s).reg j = if j ∈ ks then readByte s.mem (blockAddr s j) else s.reg j := by
  induction ks generalizing s with
  | nil => simp
  | cons k ks ih =>
    rw [List.foldl_cons, ih]
    have hmem : (loadReg s k).mem = s.mem := rfl
    have haddr : blockAddr (loadReg s k) j = blockAddr s j := rfl
    have hreg : (loadReg s k).reg j = if j = k then readByte s.mem (blockAddr s k) else s.reg j :=
      State.setReg_reg _ _ _ _
    rw [hmem, haddr, hreg]
    by_cases h1 : j = k
    · subst h1; simp
    · simp [h1]

/-- Fx65 after its range check: the byte at I + k in V[k] for k = 0..x, every other register as before (44_family_F.md
R105). -/
theorem reg_loadRegs (s : State) (x j : RegIdx) :
    (loadRegs s x).reg j = if j ≤ x then readByte s.mem (s.i.toNat + j.val) else s.reg j := by
  rw [loadRegs, reg_foldl_loadReg]
  simp only [mem_blockRegs, blockAddr]

/-! ### Numbers -/

theorem zext16_toNat (nnn : Addr12) : (zext16 nnn).toNat = nnn.toNat := by
  have := nnn.isLt
  simp only [zext16, BitVec.toNat_setWidth]
  omega

theorem indexedTarget_toNat (nnn : Addr12) (b : Byte) :
    (indexedTarget nnn b).toNat = nnn.toNat + b.toNat := by
  have := nnn.isLt
  have := b.isLt
  simp only [indexedTarget, BitVec.toNat_ofNat]
  omega

theorem twoOn_toNat (a : Word) : (twoOn a).toNat = (a.toNat + 2) % 65536 := by
  simp only [twoOn, BitVec.toNat_ofNat]
  omega

theorem addByte_toNat (a b : Byte) : (addByte a b).toNat = (a.toNat + b.toNat) % 256 := by
  simp only [addByte, BitVec.toNat_ofNat]
  omega

theorem addIndex_toNat (a : Word) (b : Byte) : (addIndex a b).toNat = (a.toNat + b.toNat) % 65536 := by
  simp only [addIndex, BitVec.toNat_ofNat]
  omega

theorem firstOutOfRange_toNat (a : Word) : (firstOutOfRange a).toNat = max a.toNat 4096 := by
  unfold firstOutOfRange memSize
  split
  · show 4096 = _
    omega
  · omega

end Sys2Proof.Machine
end

