-- ==== Sys2Proof/Laws/Exec.lean ====
section
/-! SUPPORT. What dispatch can do, said once for all instructions: it always answers a next state, which either keeps the
status or is the state before with a fault record. -/
namespace Sys2Proof.Machine

/-- Dispatch always answers a next state: the block has no illegal instruction (30_encoding.md R62), and a fault is the
next state that records it (60_exceptions.md R118). -/
theorem exec_answers (i : Instr) (s : State) : ∃ t, exec i s = .next t := by
  cases i <;> exact ⟨_, rfl⟩

@[simp] theorem skipIf_status (c : Bool) (s : State) : (skipIf c s).status = s.status := by
  unfold skipIf; split <;> rfl

theorem skipIf_eq (c : Bool) (s : State) : skipIf c s = s.setPc (if c then twoOn s.pc else s.pc) := by
  cases c <;> rfl

theorem stackFull_iff (s : State) : s.stackFull = true ↔ s.params.stackDepth = some s.stack.length := by
  unfold State.stackFull
  split
  · rename_i h; simp [h]
  · rename_i d h; rw [h, beq_iff_eq, Option.some_inj, eq_comm]

theorem topStack_none_iff (s : State) : s.topStack = none ↔ s.stack = [] := List.getLast?_eq_none_iff

theorem topStack_append (s : State) (l : List Word) (a : Word) (h : s.stack = l ++ [a]) :
    s.topStack = some a ∧ s.dropStack.stack = l := by
  simp [State.topStack, h]

/-- What one dispatch can do to the status. Either it is kept, or the result is the state before with a fault record:
RET on an empty stack, CALL on a full one, Fx55 or Fx65 out of range (60_exceptions.md R117). -/
theorem exec_status_cases {i : Instr} {s t : State} (h : exec i s = .next t) :
    t.status = s.status ∨
    (i = .ret ∧ s.stack = [] ∧ t = s.takeFault .stackUnderflow (some 0x00EE#16) none) ∨
    (∃ nnn, i = .call nnn ∧ s.params.stackDepth = some s.stack.length ∧
      t = s.takeFault .stackOverflow (some (encode i)) none) ∨
    (∃ x, (i = .storeBlock x ∨ i = .loadBlock x) ∧ 4096 ≤ s.i.toNat + x.val ∧
      t = s.takeFault .dataRange (some (encode i)) (some (firstOutOfRange s.i))) := by
  cases i with
  | ret =>
    cases h
    cases hs : s.topStack with
    | none => exact .inr (.inl ⟨rfl, (topStack_none_iff s).1 hs, rfl⟩)
    | some a => exact .inl rfl
  | call nnn =>
    cases h
    by_cases hf : s.stackFull = true
    · exact .inr (.inr (.inl ⟨nnn, rfl, (stackFull_iff s).1 hf, if_pos hf⟩))
    · left; rw [if_neg hf]; rfl
  | storeBlock x =>
    cases h
    by_cases hf : blockInRange s x = true
    · left; rw [if_pos hf, storeRegs_eq]; rfl
    · exact .inr (.inr (.inr ⟨x, .inl rfl, by rw [blockInRange_iff] at hf; omega, if_neg hf⟩))
  | loadBlock x =>
    cases h
    by_cases hf : blockInRange s x = true
    · left; rw [if_pos hf, loadRegs_eq]; rfl
    · exact .inr (.inr (.inr ⟨x, .inr rfl, by rw [blockInRange_iff] at hf; omega, if_neg hf⟩))
  | seImm x nn => cases h; exact .inl (skipIf_status _ _)
  | sneImm x nn => cases h; exact .inl (skipIf_status _ _)
  | seReg x y => cases h; exact .inl (skipIf_status _ _)
  | _ => cases h; exact .inl rfl

/-- No instruction touches the parameters, the boundary counter or the load window. -/
theorem exec_own_fields {i : Instr} {s t : State} (h : exec i s = .next t) :
    t.params = s.params ∧ t.boundary = s.boundary ∧ t.loading = s.loading := by
  rcases exec_status_cases h with _ | ⟨-, -, rfl⟩ | ⟨-, -, -, rfl⟩ | ⟨-, -, -, rfl⟩
  · cases i with
    | ret => cases h; cases s.topStack <;> exact ⟨rfl, rfl, rfl⟩
    | call nnn => cases h; split <;> exact ⟨rfl, rfl, rfl⟩
    | storeBlock x => cases h; split <;> [(rw [storeRegs_eq]; exact ⟨rfl, rfl, rfl⟩); exact ⟨rfl, rfl, rfl⟩]
    | loadBlock x => cases h; split <;> [(rw [loadRegs_eq]; exact ⟨rfl, rfl, rfl⟩); exact ⟨rfl, rfl, rfl⟩]
    | seImm x nn => cases h; rw [skipIf_eq]; exact ⟨rfl, rfl, rfl⟩
    | sneImm x nn => cases h; rw [skipIf_eq]; exact ⟨rfl, rfl, rfl⟩
    | seReg x y => cases h; rw [skipIf_eq]; exact ⟨rfl, rfl, rfl⟩
    | _ => cases h; exact ⟨rfl, rfl, rfl⟩
  all_goals exact ⟨rfl, rfl, rfl⟩

/-- Memory after a dispatch: Fx55 in range stores, everything else leaves it. -/
theorem exec_mem {i : Instr} {s t : State} (h : exec i s = .next t) :
    t.mem = s.mem ∨ ∃ x, i = .storeBlock x ∧ s.i.toNat + x.val < 4096 ∧ t = storeRegs s x := by
  cases i with
  | ret => cases h; left; cases s.topStack <;> rfl
  | call nnn => cases h; left; split <;> rfl
  | storeBlock x =>
    cases h
    by_cases hf : blockInRange s x = true
    · exact .inr ⟨x, rfl, blockInRange_iff.1 hf, if_pos hf⟩
    · left; rw [if_neg hf]; rfl
  | loadBlock x => cases h; left; split <;> [(rw [loadRegs_eq]; rfl); rfl]
  | seImm x nn => cases h; rw [skipIf_eq]; exact .inl rfl
  | sneImm x nn => cases h; rw [skipIf_eq]; exact .inl rfl
  | seReg x y => cases h; rw [skipIf_eq]; exact .inl rfl
  | _ => cases h; exact .inl rfl

/-- Dispatch keeps the canonical form of memory. -/
theorem exec_mem_wf {i : Instr} {s t : State} (h : exec i s = .next t) (hm : Memory.wf s.mem) :
    Memory.wf t.mem := by
  rcases exec_mem h with h' | ⟨x, -, -, rfl⟩
  · rwa [h']
  · exact storeRegs_wf s x hm

end Sys2Proof.Machine
end

