-- ==== Sys2Proof/Laws/Cycle.lean ====
section
/-! SUPPORT. What one step can do, said once: held, faulted at the fetch, faulted in dispatch, or advanced over the
boundary. Every claim about a step starts from `step_cases`. -/
namespace Sys2Proof.Machine

theorem fetch_some_iff {s : State} {op : Word} :
    fetch s = some op ↔ s.pc.toNat + 1 < 4096 ∧
      op = wordOfBytes (readByte s.mem s.pc.toNat) (readByte s.mem (s.pc.toNat + 1)) := by
  unfold fetch memSize
  by_cases h : s.pc.toNat + 1 < 4096
  · rw [if_pos h, Option.some_inj]
    exact Iff.intro (fun e => ⟨h, e.symm⟩) (fun e => e.2.symm)
  · rw [if_neg h]
    exact Iff.intro (fun e => nomatch e) (fun e => absurd e.1 h)

theorem fetch_none_iff {s : State} : fetch s = none ↔ 4096 ≤ s.pc.toNat + 1 := by
  unfold fetch memSize
  by_cases h : s.pc.toNat + 1 < 4096
  · rw [if_pos h]
    exact Iff.intro (fun e => nomatch e) (fun e => absurd h (by omega))
  · rw [if_neg h]
    exact Iff.intro (fun _ => by omega) (fun _ => rfl)

theorem advance_running {s : State} (h : s.status = .running) : advance s = s.setPc (twoOn s.pc) := by
  unfold advance; rw [h]

theorem advance_faulted {s : State} {r : FaultRecord} (h : s.status = .faulted r) : advance s = s := by
  unfold advance; rw [h]

/-- What a step does in each case, as an equation. -/
theorem step_faulted {s : State} {r : FaultRecord} (h : s.status = .faulted r) : step s = .next s := by
  unfold step cycleAndBoundary cycle; rw [h]; simp only [atBoundary_faulted h]

theorem step_fetch_fault {s : State} (h : s.status = .running) (hf : fetch s = none) :
    step s = .next (fetchFault s) := by
  unfold step cycleAndBoundary cycle; rw [h, hf]; rfl

theorem step_exec {s u : State} {op : Word} (h : s.status = .running) (hf : fetch s = some op)
    (hx : exec (decodeWord op) s = .next u) : step s = .next (atBoundary (advance u)) := by
  unfold step cycleAndBoundary cycle execAndAdvance; rw [h, hf]; simp only [hx]

/-- Everything a step can do. -/
theorem step_cases {s t : State} (h : step s = .next t) :
    (∃ r, s.status = .faulted r ∧ t = s) ∨
    (s.status = .running ∧ fetch s = none ∧ t = fetchFault s) ∨
    (∃ op u, s.status = .running ∧ fetch s = some op ∧ exec (decodeWord op) s = .next u ∧
      ((∃ r, u.status = .faulted r ∧ t = u) ∨
        (u.status = .running ∧ t = atBoundary (u.setPc (twoOn u.pc))))) := by
  cases hs : s.status with
  | faulted r =>
    rw [step_faulted hs] at h
    exact .inl ⟨r, rfl, by cases h; rfl⟩
  | running =>
    right
    cases hf : fetch s with
    | none =>
      rw [step_fetch_fault hs hf] at h
      exact .inl ⟨rfl, rfl, by cases h; rfl⟩
    | some op =>
      obtain ⟨u, hu⟩ := exec_answers (decodeWord op) s
      rw [step_exec hs hf hu] at h
      refine .inr ⟨op, u, rfl, rfl, hu, ?_⟩
      cases hus : u.status with
      | faulted r =>
        rw [advance_faulted hus, atBoundary_faulted hus] at h
        exact .inl ⟨r, rfl, by cases h; rfl⟩
      | running =>
        rw [advance_running hus] at h
        exact .inr ⟨rfl, by cases h; rfl⟩

end Sys2Proof.Machine
end

