-- ==== Sys2Proof/Laws/Frames.lean ====
section
/-! SUPPORT. Frames: what each named update leaves, and how frames combine. -/
namespace Sys2Proof.Machine

theorem Part.same_refl (s : State) (p : Part) : Part.same s s p := by
  cases p <;> first | rfl | exact fun _ => rfl

theorem Part.same_symm {s t : State} {p : Part} (h : Part.same s t p) : Part.same t s p := by
  cases p <;> first | exact Eq.symm h | exact fun k => Eq.symm (h k)

theorem Part.same_trans {s t u : State} {p : Part} (h : Part.same s t p) (h' : Part.same t u p) :
    Part.same s u p := by
  cases p <;> first | exact Eq.trans h' h | exact fun k => Eq.trans (h' k) (h k)

theorem SameBut.refl (ps : List Part) (s : State) : SameBut ps s s := fun p _ => Part.same_refl s p

theorem SameBut.mono {ps qs : List Part} {s t : State} (h : SameBut ps s t) (hs : ps ⊆ qs) : SameBut qs s t :=
  fun p hp => h p fun hq => hp (hs hq)

theorem SameBut.trans {ps : List Part} {s t u : State} (h : SameBut ps s t) (h' : SameBut ps t u) :
    SameBut ps s u :=
  fun p hp => Part.same_trans (h p hp) (h' p hp)

theorem SameBut.symm {ps : List Part} {s t : State} (h : SameBut ps s t) : SameBut ps t s :=
  fun p hp => Part.same_symm (h p hp)

/-- A frame follows from the parts it does not list, checked one by one. -/
theorem SameBut.of_parts {ps : List Part} {s t : State} (h : ∀ p, p ∈ ps ∨ Part.same s t p) : SameBut ps s t :=
  fun p hp => (h p).resolve_left hp

theorem sameBut_setReg (s : State) (r : RegIdx) (b : Byte) : SameBut [.regs] s (s.setReg r b) :=
  .of_parts fun p => by cases p <;> first | exact .inr rfl | exact .inr fun _ => rfl | (left; decide)

theorem sameBut_setI (s : State) (a : Word) : SameBut [.index] s (s.setI a) :=
  .of_parts fun p => by cases p <;> first | exact .inr rfl | exact .inr fun _ => rfl | (left; decide)

theorem sameBut_setPc (s : State) (a : Word) : SameBut [.pc] s (s.setPc a) :=
  .of_parts fun p => by cases p <;> first | exact .inr rfl | exact .inr fun _ => rfl | (left; decide)

theorem sameBut_setDT (s : State) (b : Byte) : SameBut [.dt] s (s.setDT b) :=
  .of_parts fun p => by cases p <;> first | exact .inr rfl | exact .inr fun _ => rfl | (left; decide)

theorem sameBut_setST (s : State) (b : Byte) : SameBut [.st] s (s.setST b) :=
  .of_parts fun p => by cases p <;> first | exact .inr rfl | exact .inr fun _ => rfl | (left; decide)

theorem sameBut_setMem (s : State) (m : Memory) : SameBut [.mem] s (s.setMem m) :=
  .of_parts fun p => by cases p <;> first | exact .inr rfl | exact .inr fun _ => rfl | (left; decide)

theorem sameBut_pushStack (s : State) (a : Word) : SameBut [.stack] s (s.pushStack a) :=
  .of_parts fun p => by cases p <;> first | exact .inr rfl | exact .inr fun _ => rfl | (left; decide)

theorem sameBut_dropStack (s : State) : SameBut [.stack] s s.dropStack :=
  .of_parts fun p => by cases p <;> first | exact .inr rfl | exact .inr fun _ => rfl | (left; decide)

theorem sameBut_reportNI (s : State) (op : Word) : SameBut [.events] s (s.reportNI op) :=
  .of_parts fun p => by cases p <;> first | exact .inr rfl | exact .inr fun _ => rfl | (left; decide)

theorem sameBut_countDraw (s : State) : SameBut [.rndCount] s s.countDraw :=
  .of_parts fun p => by cases p <;> first | exact .inr rfl | exact .inr fun _ => rfl | (left; decide)

theorem sameBut_displayClear (s : State) : SameBut [.screen, .events] s s.displayClear :=
  .of_parts fun p => by cases p <;> first | exact .inr rfl | exact .inr fun _ => rfl | (left; decide)

theorem sameBut_takeFault (s : State) (code : FaultCode) (op addr : Option Word) : SameBut [.status] s (s.takeFault code op addr) :=
  .of_parts fun p => by cases p <;> first | exact .inr rfl | exact .inr fun _ => rfl | (left; decide)

theorem sameBut_withRegs (s : State) (v : Vector Byte 16) : SameBut [.regs] s (s.withRegs v) :=
  .of_parts fun p => by cases p <;> first | exact .inr rfl | exact .inr fun _ => rfl | (left; decide)

theorem sameBut_skipIf (c : Bool) (s : State) : SameBut [.pc] s (skipIf c s) := by
  rw [skipIf_eq]
  exact sameBut_setPc _ _

theorem sameBut_storeRegs (s : State) (x : RegIdx) : SameBut [.mem] s (storeRegs s x) := by
  rw [storeRegs_eq]
  exact sameBut_setMem _ _

theorem sameBut_loadRegs (s : State) (x : RegIdx) : SameBut [.regs] s (loadRegs s x) := by
  rw [loadRegs_eq]
  exact sameBut_withRegs _ _

/-- The boundary changes the timers, the counter of boundaries and the load window. -/
theorem sameBut_atBoundary (s : State) : SameBut [.dt, .st, .boundary, .loading] s (atBoundary s) := by
  cases h : s.status with
  | faulted r => rw [atBoundary_faulted h]; exact .refl _ _
  | running =>
    rw [atBoundary_running h]
    exact .of_parts fun p => by cases p <;> first | exact .inr rfl | exact .inr fun _ => rfl | (left; decide)

end Sys2Proof.Machine
end

