-- ==== Sys2Proof/Laws/PerInstr.lean ====
section
/-! SUPPORT. Per-instruction laws about the syntax. `EncodeRow`: an instruction's encoding lies in the row of
spec/opcode_table.json that its rule gives (30_encoding.md R65). -/
namespace Sys2Proof

/-! ### Masks, format by format -/

theorem and_of_concat {a b : Nat} (u c : BitVec a) (v d : BitVec b) :
    (u ++ v) &&& (c ++ d) = (u &&& c) ++ (v &&& d) := by
  ext k hk
  simp only [BitVec.getElem_and, BitVec.getElem_append]
  split <;> rfl

/-- The masks of the table, by fields: family, x, y, n. -/
theorem wordNNN_and (f g : Nibble) (a b : Addr12) : wordNNN f a &&& wordNNN g b = wordNNN (f &&& g) (a &&& b) :=
  and_of_concat f g a b

theorem wordNNN_family_mask (f : Nibble) (nnn : Addr12) : wordNNN f nnn &&& 0xF000#16 = wordNNN f 0x000#12 := by
  have h : (0xF000#16 : Word) = wordNNN 0xF#4 0x000#12 := by decide
  rw [h, wordNNN_and, BitVec.and_zero]
  congr 1
  exact BitVec.and_allOnes

theorem wordXNN_family_mask (f : Nibble) (x : RegIdx) (nn : Byte) :
    wordXNN f x nn &&& 0xF000#16 = wordNNN f 0x000#12 := wordNNN_family_mask f _

theorem wordXYN_family_mask (f : Nibble) (x y : RegIdx) (n : Nibble) :
    wordXYN f x y n &&& 0xF000#16 = wordNNN f 0x000#12 := wordNNN_family_mask f _

theorem wordXNN_mode_mask (f : Nibble) (x : RegIdx) (nn : Byte) :
    wordXNN f x nn &&& 0xF0FF#16 = wordXNN f 0 nn := by
  have h : (0xF0FF#16 : Word) = wordNNN 0xF#4 (0x0#4 ++ 0xFF#8 : Addr12) := by decide
  have e : (regBits x ++ nn : Addr12) &&& (0x0#4 ++ 0xFF#8 : Addr12) = (regBits 0 ++ nn : Addr12) := by
    refine (and_of_concat (regBits x) 0x0#4 nn 0xFF#8).trans ?_
    rw [BitVec.and_zero, show nn &&& 0xFF#8 = nn from BitVec.and_allOnes]
    rfl
  rw [h, wordXNN]
  refine (wordNNN_and f 0xF#4 _ _).trans ?_
  rw [e, show f &&& 0xF#4 = f from BitVec.and_allOnes]
  rfl

theorem wordXYN_mode_mask (f : Nibble) (x y : RegIdx) (n : Nibble) :
    wordXYN f x y n &&& 0xF00F#16 = wordXYN f 0 0 n := by
  have h : (0xF00F#16 : Word) = wordXNN 0xF#4 0 (0x0#4 ++ 0xF#4 : Byte) := by decide
  have e : (regBits y ++ n : Byte) &&& (0x0#4 ++ 0xF#4 : Byte) = (regBits 0 ++ n : Byte) := by
    refine (and_of_concat (regBits y) 0x0#4 n 0xF#4).trans ?_
    rw [BitVec.and_zero, show n &&& 0xF#4 = n from BitVec.and_allOnes]
    rfl
  have e2 : (regBits x ++ (regBits y ++ n : Byte) : Addr12) &&& (regBits 0 ++ (0x0#4 ++ 0xF#4 : Byte) : Addr12)
      = (regBits 0 ++ (regBits 0 ++ n : Byte) : Addr12) := by
    refine (and_of_concat (regBits x) (regBits 0) _ _).trans ?_
    rw [e, show regBits x &&& regBits 0 = regBits 0 from BitVec.and_zero]
  rw [h]
  refine (wordNNN_and f 0xF#4 _ _).trans ?_
  rw [e2, show f &&& 0xF#4 = f from BitVec.and_allOnes]
  rfl

namespace Laws.EncodeRow

/-- The encoding of `i` is accepted by a row of the table, and that row's rule is the one that gives `i`. -/
def Statement (i : Instr) : Prop := ∃ r ∈ opcodeTable, r.rule = i.rule ∧ r.accepts (encode i) = true

theorem of_row {i : Instr} (r : OpRow) (hr : r ∈ opcodeTable) (hn : r.rule = i.rule)
    (ha : encode i &&& r.maskBits = r.matchBits) : Statement i :=
  ⟨r, hr, hn, beq_iff_eq.2 ha⟩

theorem cls : Statement .cls :=
  of_row ⟨75, 0x00E0#16, 0xFFFF#16, 0⟩ (by decide) rfl rfl

theorem ret : Statement .ret :=
  of_row ⟨76, 0x00EE#16, 0xFFFF#16, 0⟩ (by decide) rfl rfl

theorem sys (nnn : Addr12) : Statement (.sys nnn) :=
  of_row ⟨77, 0x0000#16, 0xF000#16, 1⟩ (by decide) rfl
    ((wordNNN_family_mask _ _).trans (by decide))

theorem jp (nnn : Addr12) : Statement (.jp nnn) :=
  of_row ⟨78, 0x1000#16, 0xF000#16, 0⟩ (by decide) rfl
    ((wordNNN_family_mask _ _).trans (by decide))

theorem call (nnn : Addr12) : Statement (.call nnn) :=
  of_row ⟨79, 0x2000#16, 0xF000#16, 0⟩ (by decide) rfl
    ((wordNNN_family_mask _ _).trans (by decide))

theorem seImm (x : RegIdx) (nn : Byte) : Statement (.seImm x nn) :=
  of_row ⟨80, 0x3000#16, 0xF000#16, 0⟩ (by decide) rfl
    ((wordXNN_family_mask _ _ _).trans (by decide))

theorem sneImm (x : RegIdx) (nn : Byte) : Statement (.sneImm x nn) :=
  of_row ⟨81, 0x4000#16, 0xF000#16, 0⟩ (by decide) rfl
    ((wordXNN_family_mask _ _ _).trans (by decide))

theorem seReg (x y : RegIdx) : Statement (.seReg x y) :=
  of_row ⟨82, 0x5000#16, 0xF000#16, 0⟩ (by decide) rfl
    ((wordXYN_family_mask _ _ _ _).trans (by decide))

theorem ldImm (x : RegIdx) (nn : Byte) : Statement (.ldImm x nn) :=
  of_row ⟨83, 0x6000#16, 0xF000#16, 0⟩ (by decide) rfl
    ((wordXNN_family_mask _ _ _).trans (by decide))

theorem addImm (x : RegIdx) (nn : Byte) : Statement (.addImm x nn) :=
  of_row ⟨84, 0x7000#16, 0xF000#16, 0⟩ (by decide) rfl
    ((wordXNN_family_mask _ _ _).trans (by decide))

theorem ldReg (x y : RegIdx) : Statement (.ldReg x y) :=
  of_row ⟨85, 0x8000#16, 0xF00F#16, 0⟩ (by decide) rfl
    ((wordXYN_mode_mask _ _ _ _).trans (by decide))

theorem orReg (x y : RegIdx) : Statement (.orReg x y) :=
  of_row ⟨86, 0x8001#16, 0xF00F#16, 0⟩ (by decide) rfl
    ((wordXYN_mode_mask _ _ _ _).trans (by decide))

theorem andReg (x y : RegIdx) : Statement (.andReg x y) :=
  of_row ⟨87, 0x8002#16, 0xF00F#16, 0⟩ (by decide) rfl
    ((wordXYN_mode_mask _ _ _ _).trans (by decide))

theorem xorReg (x y : RegIdx) : Statement (.xorReg x y) :=
  of_row ⟨88, 0x8003#16, 0xF00F#16, 0⟩ (by decide) rfl
    ((wordXYN_mode_mask _ _ _ _).trans (by decide))

theorem addRegNI (x y : RegIdx) : Statement (.addRegNI x y) :=
  of_row ⟨89, 0x8004#16, 0xF00F#16, 0⟩ (by decide) rfl
    ((wordXYN_mode_mask _ _ _ _).trans (by decide))

theorem aluOtherNI (x y : RegIdx) (n : Nibble) : Statement (.aluOtherNI x y n) :=
  of_row ⟨90, 0x8000#16, 0xF000#16, 1⟩ (by decide) rfl
    ((wordXYN_family_mask _ _ _ _).trans (by decide))

theorem sneRegNI (x y : RegIdx) (n : Nibble) : Statement (.sneRegNI x y n) :=
  of_row ⟨91, 0x9000#16, 0xF000#16, 0⟩ (by decide) rfl
    ((wordXYN_family_mask _ _ _ _).trans (by decide))

theorem ldI (nnn : Addr12) : Statement (.ldI nnn) :=
  of_row ⟨92, 0xA000#16, 0xF000#16, 0⟩ (by decide) rfl
    ((wordNNN_family_mask _ _).trans (by decide))

theorem jpV0 (nnn : Addr12) : Statement (.jpV0 nnn) :=
  of_row ⟨93, 0xB000#16, 0xF000#16, 0⟩ (by decide) rfl
    ((wordNNN_family_mask _ _).trans (by decide))

theorem rnd (x : RegIdx) (nn : Byte) : Statement (.rnd x nn) :=
  of_row ⟨94, 0xC000#16, 0xF000#16, 0⟩ (by decide) rfl
    ((wordXNN_family_mask _ _ _).trans (by decide))

theorem drwNI (x y : RegIdx) (n : Nibble) : Statement (.drwNI x y n) :=
  of_row ⟨95, 0xD000#16, 0xF000#16, 0⟩ (by decide) rfl
    ((wordXYN_family_mask _ _ _ _).trans (by decide))

theorem keyNI (x : RegIdx) (nn : Byte) : Statement (.keyNI x nn) :=
  of_row ⟨96, 0xE000#16, 0xF000#16, 0⟩ (by decide) rfl
    ((wordXNN_family_mask _ _ _).trans (by decide))

theorem ldVxDT (x : RegIdx) : Statement (.ldVxDT x) :=
  of_row ⟨97, 0xF007#16, 0xF0FF#16, 0⟩ (by decide) rfl
    ((wordXNN_mode_mask _ _ _).trans (by decide))

theorem keyWaitNI (x : RegIdx) : Statement (.keyWaitNI x) :=
  of_row ⟨98, 0xF00A#16, 0xF0FF#16, 0⟩ (by decide) rfl
    ((wordXNN_mode_mask _ _ _).trans (by decide))

theorem ldDT (x : RegIdx) : Statement (.ldDT x) :=
  of_row ⟨99, 0xF015#16, 0xF0FF#16, 0⟩ (by decide) rfl
    ((wordXNN_mode_mask _ _ _).trans (by decide))

theorem ldST (x : RegIdx) : Statement (.ldST x) :=
  of_row ⟨100, 0xF018#16, 0xF0FF#16, 0⟩ (by decide) rfl
    ((wordXNN_mode_mask _ _ _).trans (by decide))

theorem addI (x : RegIdx) : Statement (.addI x) :=
  of_row ⟨101, 0xF01E#16, 0xF0FF#16, 0⟩ (by decide) rfl
    ((wordXNN_mode_mask _ _ _).trans (by decide))

theorem glyphNI (x : RegIdx) : Statement (.glyphNI x) :=
  of_row ⟨102, 0xF029#16, 0xF0FF#16, 0⟩ (by decide) rfl
    ((wordXNN_mode_mask _ _ _).trans (by decide))

theorem bcdNI (x : RegIdx) : Statement (.bcdNI x) :=
  of_row ⟨103, 0xF033#16, 0xF0FF#16, 0⟩ (by decide) rfl
    ((wordXNN_mode_mask _ _ _).trans (by decide))

theorem storeBlock (x : RegIdx) : Statement (.storeBlock x) :=
  of_row ⟨104, 0xF055#16, 0xF0FF#16, 0⟩ (by decide) rfl
    ((wordXNN_mode_mask _ _ _).trans (by decide))

theorem loadBlock (x : RegIdx) : Statement (.loadBlock x) :=
  of_row ⟨105, 0xF065#16, 0xF0FF#16, 0⟩ (by decide) rfl
    ((wordXNN_mode_mask _ _ _).trans (by decide))

theorem fOtherNI (x : RegIdx) (nn : Byte) : Statement (.fOtherNI x nn) :=
  of_row ⟨106, 0xF000#16, 0xF000#16, 1⟩ (by decide) rfl
    ((wordXNN_family_mask _ _ _).trans (by decide))

end Laws.EncodeRow

end Sys2Proof
end

