-- ==== Sys2Proof/Laws/Sequencer.lean ====
section
/-! SUPPORT. What one phase of the reference sequencer does, by its reset line and its phase, and what a load in RESET
does (45_execution_loop.md R116, 70_reset_and_hazards.md R136 to R140). -/
namespace Sys2Proof.Machine

variable {inp : SequencerInputs} {q : Sequencer}

theorem phaseStep_asserted {present : Bool} (h : inp.reset = .asserted present) :
    phaseStep inp q = resetPhase present q := by
  unfold phaseStep; rw [h]

theorem phaseStep_released (h : inp.reset = .released) : phaseStep inp q = releasedPhase inp q := by
  unfold phaseStep; rw [h]

theorem resetPhase_enters (present : Bool) (h : q.phase ≠ .reset) :
    resetPhase present q = { q with phase := .reset, core := hostReset present q.core } := by
  unfold resetPhase; split <;> [contradiction; rfl]

theorem resetPhase_holds (present : Bool) (h : q.phase = .reset) : resetPhase present q = q := by
  unfold resetPhase; rw [h]

theorem releasedPhase_exec (h : q.phase = .exec) :
    releasedPhase inp q = if execWaits inp q.core (decodeWord q.ir) then q else execPhase q := by
  unfold releasedPhase; rw [h]

/-- With every wait answered EXEC never waits. -/
@[simp] theorem execWaits_answered (s : State) (i : Instr) : execWaits .answered s i = false := by
  cases i <;> simp [execWaits, SequencerInputs.answered]

theorem phaseStep_answered_exec (h : q.phase = .exec) : phaseStep .answered q = execPhase q := by
  rw [phaseStep_released rfl, releasedPhase_exec h, execWaits_answered]; rfl

/-- The effect of an instruction that does not fault ends EXEC. -/
theorem effectPhase_next {i : Instr} {t : State} (h : exec i q.core = .next t) (ht : t.status = .running) :
    effectPhase i q = { q with phase := .advance, core := t } := by
  unfold effectPhase; simp only [h, ht]

/-- The effect of an instruction that faults ends in HALT. -/
theorem effectPhase_fault {i : Instr} {t : State} {r : FaultRecord} (h : exec i q.core = .next t)
    (ht : t.status = .faulted r) : effectPhase i q = { q with phase := .halt, core := t } := by
  unfold effectPhase; simp only [h, ht]

/-- Where EXEC of an instruction can lead: a faulted core in HALT, or another phase than HALT and RESET. -/
theorem execPhase_cases (h : q.phase = .exec) :
    ((execPhase q).phase = .halt ∧ ∃ r, (execPhase q).core.status = .faulted r) ∨
    (execPhase q).phase = .exec ∨ (execPhase q).phase = .advance := by
  unfold execPhase
  split
  iterate 2
    unfold blockPhase
    split
    · split <;> [exact .inr (.inl h); exact .inl ⟨rfl, _, rfl⟩]
    · split <;> [exact .inr (.inr rfl); exact .inr (.inl h)]
  unfold effectPhase
  split
  · split
    · exact .inr (.inr rfl)
    · rename_i hr; exact .inl ⟨rfl, _, hr⟩
  · exact .inr (.inl h)
  · exact .inr (.inl h)

/-- A phase with reset released: it holds HALT, or it ends in HALT from FETCH_HI or EXEC with a faulted core, or it ends
in another phase than HALT and RESET. -/
theorem releasedPhase_cases :
    (q.phase = .halt ∧ releasedPhase inp q = q) ∨
    ((q.phase = .fetchHi ∨ q.phase = .exec) ∧ (releasedPhase inp q).phase = .halt ∧
      ∃ r, (releasedPhase inp q).core.status = .faulted r) ∨
    ((releasedPhase inp q).phase ≠ .halt ∧ (releasedPhase inp q).phase ≠ .reset) := by
  unfold releasedPhase
  cases h : q.phase with
  | halt => exact .inl ⟨rfl, rfl⟩
  | fetchHi =>
    right; dsimp only
    split <;> [exact .inr ⟨nofun, nofun⟩; exact .inl ⟨.inl rfl, rfl, _, rfl⟩]
  | exec =>
    right; dsimp only
    split
    · rw [h]; exact .inr ⟨nofun, nofun⟩
    · rcases execPhase_cases h with ⟨hh, hr⟩ | hh | hh
      · exact .inl ⟨.inr rfl, hh, hr⟩
      all_goals rw [hh]; exact .inr ⟨nofun, nofun⟩
  | reset => exact .inr (.inr ⟨nofun, nofun⟩)
  | fetchLo => exact .inr (.inr ⟨nofun, nofun⟩)
  | decode => exact .inr (.inr ⟨nofun, nofun⟩)
  | advance => exact .inr (.inr ⟨nofun, nofun⟩)

theorem sequencerLoad_outside (image : List Byte) (h : q.phase ≠ .reset) :
    sequencerLoad image q = .refused .loadOutsideWindow := by
  unfold sequencerLoad; split <;> [contradiction; rfl]

theorem sequencerLoad_next {image : List Byte} {t : State} (h : q.phase = .reset) (hl : loadImage image q.core = .next t) :
    sequencerLoad image q = .next { q with core := t } := by
  unfold sequencerLoad; simp only [h, hl]

end Sys2Proof.Machine
end

