-- ==== Sys2Proof/Tests/Slice0.lean ====
section
/-! SUPPORT. Small tests: the syntax checks, one word of every row decoded, worked examples of the spec run for one cycle,
and a witness for the hypotheses of every statement. Expected values are those of spec/95_test_vectors.md (the vector is
named) or of the rule named. -/
namespace Sys2Proof.Tests
open Sys2Proof.Machine

/-! ### Syntax checks -/

theorem test_illformed_sys_cls : (Instr.sys 0x0E0#12).wellFormed = false := by decide
theorem test_illformed_sys_ret : (Instr.sys 0x0EE#12).wellFormed = false := by decide
theorem test_illformed_alu : ∀ k : Fin 5, (Instr.aluOtherNI 1 2 (BitVec.ofNat 4 k.val)).wellFormed = false := by decide
theorem test_wellformed_alu : (Instr.aluOtherNI 1 2 0x5#4).wellFormed = true := by decide
theorem test_illformed_misc : ∀ nn ∈ [0x07#8, 0x0A#8, 0x15#8, 0x18#8, 0x1E#8, 0x29#8, 0x33#8, 0x55#8, 0x65#8],
    (Instr.fOtherNI 3 nn).wellFormed = false := by decide

/-! ### Decoding: a word of every row, written out from 30_encoding.md R54, R58 to R60 -/

theorem test_decode_cls : decodeWord 0b0000000011100000#16 = .cls := by decide
theorem test_decode_ret : decodeWord 0b0000000011101110#16 = .ret := by decide
theorem test_decode_sys : decodeWord 0b0000000100100011#16 = .sys 0x123#12 := by decide
theorem test_decode_jp : decodeWord 0b0001001100000000#16 = .jp 0x300#12 := by decide
theorem test_decode_call : decodeWord 0b0010001100000000#16 = .call 0x300#12 := by decide
theorem test_decode_seImm : decodeWord 0b0011001000010000#16 = .seImm 2 0x10#8 := by decide
theorem test_decode_sneImm : decodeWord 0b0100001000010001#16 = .sneImm 2 0x11#8 := by decide
theorem test_decode_seReg : decodeWord 0b0101000100101111#16 = .seReg 1 2 := by decide
theorem test_decode_ldImm : decodeWord 0b0110101001000010#16 = .ldImm 0xA 0x42#8 := by decide
theorem test_decode_addImm : decodeWord 0b0111000000000001#16 = .addImm 0 0x01#8 := by decide
theorem test_decode_ldReg : decodeWord 0b1000001000110000#16 = .ldReg 2 3 := by decide
theorem test_decode_orReg : decodeWord 0b1000000100100001#16 = .orReg 1 2 := by decide
theorem test_decode_andReg : decodeWord 0b1000000100100010#16 = .andReg 1 2 := by decide
theorem test_decode_xorReg : decodeWord 0b1000000100100011#16 = .xorReg 1 2 := by decide
theorem test_decode_addRegNI : decodeWord 0b1000000100100100#16 = .addRegNI 1 2 := by decide
theorem test_decode_aluOtherNI : decodeWord 0b1000000100001110#16 = .aluOtherNI 1 0 0xE#4 := by decide
theorem test_decode_sneRegNI : decodeWord 0b1001000100100101#16 = .sneRegNI 1 2 0x5#4 := by decide
theorem test_decode_ldI : decodeWord 0b1010001100000000#16 = .ldI 0x300#12 := by decide
theorem test_decode_jpV0 : decodeWord 0b1011001100000000#16 = .jpV0 0x300#12 := by decide
theorem test_decode_rnd : decodeWord 0b1100001100001111#16 = .rnd 3 0x0F#8 := by decide
theorem test_decode_drwNI : decodeWord 0b1101000000010101#16 = .drwNI 0 1 0x5#4 := by decide
theorem test_decode_keyNI : decodeWord 0b1110000110011110#16 = .keyNI 1 0x9E#8 := by decide
theorem test_decode_ldVxDT : decodeWord 0b1111010100000111#16 = .ldVxDT 5 := by decide
theorem test_decode_keyWaitNI : decodeWord 0b1111001100001010#16 = .keyWaitNI 3 := by decide
theorem test_decode_ldDT : decodeWord 0b1111001000010101#16 = .ldDT 2 := by decide
theorem test_decode_ldST : decodeWord 0b1111001000011000#16 = .ldST 2 := by decide
theorem test_decode_addI : decodeWord 0b1111000100011110#16 = .addI 1 := by decide
theorem test_decode_glyphNI : decodeWord 0b1111000100101001#16 = .glyphNI 1 := by decide
theorem test_decode_bcdNI : decodeWord 0b1111000100110011#16 = .bcdNI 1 := by decide
theorem test_decode_storeBlock : decodeWord 0b1111001101010101#16 = .storeBlock 3 := by decide
theorem test_decode_loadBlock : decodeWord 0b1111001101100101#16 = .loadBlock 3 := by decide
theorem test_decode_fOtherNI : decodeWord 0b1111000000000000#16 = .fOtherNI 0 0x00#8 := by decide

/-- S1: the fields of 0xA5C3. -/
theorem test_fields : familyField 0xA5C3#16 = 0xA#4 ∧ xField 0xA5C3#16 = 5 ∧ yField 0xA5C3#16 = 0xC ∧
    nField 0xA5C3#16 = 0x3#4 ∧ nnField 0xA5C3#16 = 0xC3#8 ∧ nnnField 0xA5C3#16 = 0x5C3#12 := by decide

theorem test_decode_truncated : decodeBytes [0x12#8] = .error .truncated := by decide
theorem test_table_word : decodeTableWord 16 0xF355 = some (.storeBlock 3) := by decide
theorem test_encode_seReg : encode (.seReg 1 2) = 0x5120#16 := by decide

/-! ### One cycle from a small state

`at0 op` is the reset state of a build with a display and an unbounded stack (the convention of 95 section 0), with `op`
at 0x200. `cyc f s` is the observation `f` of the state after one cycle, before the boundary's ticks. -/

def base : State := State.resetWith { displayPresent := true, stackDepth := none }

def at0 (op : Word) : State := placeWord base op

def nextState : Host.Outcome State Fault Refusal → Option State
  | .next s => some s
  | .fault _ => none
  | .refused _ => none

def cyc {α : Type} (f : State → α) (s : State) : Option α := (nextState (cycle s)).map f

/-- T10. -/
theorem test_cls : cyc (fun t => (t.events, t.pc)) (at0 0x00E0#16) =
    some ([.displayClear 0x200#16], 0x202#16) := by decide

/-- T11: a pixel that was set is false after 00E0. -/
theorem test_cls_pixel : ∃ t, exec .cls { base with screen := Vector.replicate 2048 true } = .next t ∧
    t.pixel 63 31 = false := by
  refine ⟨_, rfl, ?_⟩
  simp only [State.pixel, State.displayClear_screen, base, State.resetWith_params, if_true, Vector.getElem_replicate]

/-- T12: without a display 00E0 leaves no event. -/
theorem test_cls_headless : cyc (fun t => (t.events, t.pc))
    { at0 0x00E0#16 with params := { displayPresent := false, stackDepth := none } } = some ([], 0x202#16) := by decide

/-- T14. -/
theorem test_ret : cyc (fun t => (t.pc, t.stack)) { at0 0x00EE#16 with stack := [0x204#16, 0x2A0#16] } =
    some (0x2A2#16, [0x204#16]) := by decide

/-- T15. -/
theorem test_ret_underflow : cyc (fun t => (t.pc, t.status)) (at0 0x00EE#16) =
    some (0x200#16, .faulted ⟨.stackUnderflow, 0x200#16, some 0x00EE#16, none⟩) := by decide

/-- T17: only the exact word 0x00EE is RET. -/
theorem test_sys : cyc (fun t => (t.events, t.pc)) (at0 0x0EE0#16) =
    some ([.notImplemented 0x200#16 0x0EE0#16], 0x202#16) := by decide

/-- S2: 0x300 after dispatch. -/
theorem test_jp_dispatch : (nextState (exec (.jp 0x300#12) base)).map (·.pc) = some 0x300#16 := by decide

/-- T21: the word at 0x200 that jumps to itself. -/
theorem test_jp : cyc (·.pc) (at0 0x11FE#16) = some 0x200#16 := by decide

/-- T27. -/
theorem test_call : cyc (fun t => (t.stack, t.pc)) (at0 0x2300#16) = some ([0x200#16], 0x302#16) := by decide

/-- T29. -/
theorem test_call_overflow : cyc (fun t => (t.stack, t.pc, t.status))
    { at0 0x2300#16 with stack := [0x250#16], params := { displayPresent := true, stackDepth := some 1 } } =
    some ([0x250#16], 0x200#16, .faulted ⟨.stackOverflow, 0x200#16, some 0x2300#16, none⟩) := by decide

/-- T40, S4. -/
theorem test_seImm : cyc (·.pc) ((at0 0x3210#16).setReg 2 0x10#8) = some 0x204#16 := by decide

/-- T41. -/
theorem test_seImm_not : cyc (·.pc) ((at0 0x3211#16).setReg 2 0x10#8) = some 0x202#16 := by decide

/-- T46. -/
theorem test_sneImm_not : cyc (·.pc) ((at0 0x4210#16).setReg 2 0x10#8) = some 0x202#16 := by decide

/-- T47. -/
theorem test_sneImm : cyc (·.pc) ((at0 0x4211#16).setReg 2 0x10#8) = some 0x204#16 := by decide

/-- T51: n = 0xF is ignored. -/
theorem test_seReg : cyc (fun t => (t.pc, t.events)) (((at0 0x512F#16).setReg 1 7#8).setReg 2 7#8) =
    some (0x204#16, []) := by decide

/-- T49. -/
theorem test_seReg_not : cyc (·.pc) (((at0 0x5120#16).setReg 1 7#8).setReg 2 8#8) = some 0x202#16 := by decide

/-- T61: VF is an ordinary register. -/
theorem test_ldImm : cyc (·.reg 15) ((at0 0x6F00#16).setReg 15 0x12#8) = some 0x00#8 := by decide

/-- S5: the sum wraps and VF is left. -/
theorem test_addImm : cyc (fun t => (t.reg 0, t.reg 15)) ((at0 0x7001#16).setReg 0 0xFF#8) =
    some (0x00#8, 0x00#8) := by decide

/-- T79: VF as source. -/
theorem test_ldReg : cyc (·.reg 0) (((at0 0x80F0#16).setReg 0 0x80#8).setReg 15 0x01#8) = some 0x01#8 := by decide

/-- S6. -/
theorem test_orReg : cyc (·.reg 1) (((at0 0x8121#16).setReg 1 0b1010#8).setReg 2 0b0110#8) = some 0b1110#8 := by decide
theorem test_andReg : cyc (·.reg 1) (((at0 0x8122#16).setReg 1 0b1010#8).setReg 2 0b0110#8) = some 0b0010#8 := by decide
theorem test_xorReg : cyc (·.reg 1) (((at0 0x8123#16).setReg 1 0b1010#8).setReg 2 0b0110#8) = some 0b1100#8 := by decide

/-- T77: x = y clears the register. -/
theorem test_xorReg_self : cyc (·.reg 1) ((at0 0x8113#16).setReg 1 0xA7#8) = some 0x00#8 := by decide

/-- T80. -/
theorem test_addRegNI : cyc (fun t => (t.reg 1, t.reg 15, t.events))
    (((at0 0x8124#16).setReg 1 0xFF#8).setReg 2 0x01#8) =
    some (0xFF#8, 0x00#8, [.notImplemented 0x200#16 0x8124#16]) := by decide

/-- T81. -/
theorem test_aluOtherNI : cyc (fun t => (t.reg 1, t.events)) ((at0 0x810E#16).setReg 1 0x04#8) =
    some (0x04#8, [.notImplemented 0x200#16 0x810E#16]) := by decide

/-- T85: no skip. -/
theorem test_sneRegNI : cyc (fun t => (t.pc, t.events)) (((at0 0x9120#16).setReg 1 1#8).setReg 2 2#8) =
    some (0x202#16, [.notImplemented 0x200#16 0x9120#16]) := by decide

/-- T90. -/
theorem test_ldI : cyc (·.i) ((at0 0xA123#16).setI 0xBEEF#16) = some 0x0123#16 := by decide

/-- T94: the sum is not reduced. -/
theorem test_jpV0 : cyc (·.pc) ((at0 0xBFFF#16).setReg 0 0xFF#8) = some 0x1100#16 := by decide

/-- T98: with the mask 0 the result is 0 for every draw, and one byte is drawn. -/
theorem test_rnd (s : State) : ∃ t, exec (.rnd 3 0x00#8) s = .next t ∧ t.reg 3 = 0x00#8 ∧ t.rndCount = s.rndCount + 1 :=
  ⟨_, rfl, by simp, rfl⟩

/-- T101. -/
theorem test_drwNI : cyc (fun t => (t.reg 15, t.events)) (at0 0xD125#16) =
    some (0x00#8, [.notImplemented 0x200#16 0xD125#16]) := by decide

/-- T102. -/
theorem test_keyNI : cyc (fun t => (t.pc, t.events)) (at0 0xE19E#16) =
    some (0x202#16, [.notImplemented 0x200#16 0xE19E#16]) := by decide

/-- T110. -/
theorem test_ldVxDT : cyc (fun t => (t.reg 1, t.dt)) ((at0 0xF107#16).setDT 0x2A#8) = some (0x2A#8, 0x2A#8) := by decide

/-- T120. -/
theorem test_keyWaitNI : cyc (fun t => (t.pc, t.events)) (at0 0xF10A#16) =
    some (0x202#16, [.notImplemented 0x200#16 0xF10A#16]) := by decide

/-- T112. -/
theorem test_ldDT : cyc (·.dt) ((at0 0xF215#16).setReg 2 0x3C#8) = some 0x3C#8 := by decide

/-- T114. -/
theorem test_ldST : cyc (fun t => (t.st, t.dt)) ((at0 0xF318#16).setReg 3 0x07#8) = some (0x07#8, 0x00#8) := by decide

/-- T116: past 0xFFF. -/
theorem test_addI : cyc (·.i) (((at0 0xF41E#16).setI 0x0FFF#16).setReg 4 0x01#8) = some 0x1000#16 := by decide

/-- T117: the carry out of bit 15 is discarded. -/
theorem test_addI_wraps : cyc (·.i) (((at0 0xF41E#16).setI 0xFFFF#16).setReg 4 0x01#8) = some 0x0000#16 := by decide

/-- T121. -/
theorem test_glyphNI : cyc (fun t => (t.i, t.events)) ((at0 0xF129#16).setI 0x300#16) =
    some (0x300#16, [.notImplemented 0x200#16 0xF129#16]) := by decide

/-- T122. -/
theorem test_bcdNI : cyc (fun t => (readByte t.mem 0x300, t.events)) (((at0 0xF133#16).setI 0x300#16).setReg 1 0xFE#8) =
    some (0x00#8, [.notImplemented 0x200#16 0xF133#16]) := by decide

/-- S7, with V0..V3 = 1, 2, 3, 4: four bytes and no fifth. -/
theorem test_storeBlock : cyc (fun t => ([0x300, 0x301, 0x302, 0x303, 0x304].map (readByte t.mem), t.i))
    (((((at0 0xF355#16).setI 0x300#16).setReg 0 1#8).setReg 1 2#8).setReg 2 3#8 |>.setReg 3 4#8) =
    some ([1#8, 2#8, 3#8, 4#8, 0#8], 0x300#16) := by decide

/-- T125: no partial write. -/
theorem test_storeBlock_fault : cyc (fun t => (readByte t.mem 0xFFF, t.pc, t.status))
    (((at0 0xF155#16).setI 0xFFF#16).setReg 0 0xAA#8) =
    some (0x00#8, 0x200#16, .faulted ⟨.dataRange, 0x200#16, some 0xF155#16, some 0x1000#16⟩) := by decide

/-- T130: a data read of code. -/
theorem test_loadBlock : cyc (fun t => (t.reg 0, t.reg 1, t.reg 2)) ((at0 0xF165#16).setI 0x200#16) =
    some (0xF1#8, 0x65#8, 0x00#8) := by decide

/-- T127, for Fx65. -/
theorem test_loadBlock_fault : cyc (·.status) ((at0 0xF065#16).setI 0x1234#16) =
    some (.faulted ⟨.dataRange, 0x200#16, some 0xF065#16, some 0x1234#16⟩) := by decide

/-- T123. -/
theorem test_fOtherNI : cyc (·.events) (at0 0xF000#16) = some [.notImplemented 0x200#16 0xF000#16] := by decide

/-! ### Fetch, ticks, reset, loader -/

/-- T1: an odd fetch. -/
theorem test_fetch_odd : cyc (fun t => (t.reg 0, t.pc)) (placeWord (base.setPc 0x201#16) 0x607F#16) =
    some (0x7F#8, 0x203#16) := by decide

/-- T4. -/
theorem test_fetch_range : cyc (·.status) (base.setPc 0xFFF#16) =
    some (.faulted ⟨.fetchRange, 0xFFF#16, none, some 0x1000#16⟩) := by decide

/-- T5. -/
theorem test_fetch_range_high : cyc (·.status) (base.setPc 0x1100#16) =
    some (.faulted ⟨.fetchRange, 0x1100#16, none, some 0x1100#16⟩) := by decide

/-- T140. -/
theorem test_tick : (tick ((base.setDT 5#8).setST 1#8)).dt = 4#8 ∧ (tick ((base.setDT 5#8).setST 1#8)).st = 0#8 := by decide

/-- T142. -/
theorem test_five_ticks : (applyTicks 5 (base.setDT 3#8)).dt = 0#8 := by decide

/-- T151. -/
theorem test_load : (nextState (loadImage [0x60#8, 0x2A#8, 0x70#8, 0x01#8] base)).map (·.mem) =
    some [(0x200, 0x60#8), (0x201, 0x2A#8), (0x202, 0x70#8), (0x203, 0x01#8)] := by decide

/-- A step from the host's reset runs the word placed there, although the display parameter is left open. -/
theorem test_step_from_reset : (nextState (step (State.reset.withFetchWord 16 0x6A42))).map (fun t => (t.reg 10, t.pc)) =
    some (0x42#8, 0x202#16) := by decide

/-- 70_reset_and_hazards.md R136: reset leaves the faulted state, and the draws go on (assumption 12). -/
theorem test_reset_from_fault : (hostReset true (base.countDraw.takeFault .fetchRange none none)).status = .running ∧
    (hostReset true (base.countDraw.takeFault .fetchRange none none)).rndCount = 1 := by decide

/-- 60_exceptions.md R131: the fault outputs. -/
theorem test_fault_port : (observe (base.takeFault .dataRange (some 0xF155#16) (some 0x1000#16))).fault =
    some ⟨2, 0x200#16, some 0xF155#16, some 0x1000#16⟩ := by decide

/-! ### Witnesses: a concrete state and operands for the hypotheses of each statement -/

/-- The reset state, faulted. -/
def dead : State := base.takeFault .stackUnderflow (some 0x00EE#16) none

/-- A finite stack that is full. -/
def full : State := { at0 0x2300#16 with stack := [0x250#16], params := { displayPresent := true, stackDepth := some 1 } }

theorem witness_DecodeOfEncodeIsIdentity : (Instr.sys 0x0EF#12).wellFormed = true := by decide

/-- A word two rows accept, and one a catch-all row takes. -/
theorem witness_DecodeFollowsOpcodeTable :
    (∃ q ∈ opcodeTable, q.rule = 75 ∧ q.accepts 0x00E0#16 = true) ∧
    (∃ q ∈ opcodeTable, q.rule = 77 ∧ q.accepts 0x00E0#16 = true) ∧
    ∃ q ∈ opcodeTable, q.rule = 106 ∧ q.accepts 0xF1FF#16 = true := by decide

theorem witness_BytesDecodeInOrder : (Instr.fOtherNI 1 0x56#8).wellFormed = true ∧ [0x60#8].length < 2 := by decide

theorem witness_StepRunsDecodedInstruction :
    (at0 0x6A42#16).status = .running ∧ (at0 0x6A42#16).pc.toNat + 1 < 4096 ∧
    decodeWord (wordOfBytes (readByte (at0 0x6A42#16).mem 0x200) (readByte (at0 0x6A42#16).mem 0x201)) =
      .ldImm 0xA 0x42#8 ∧
    ∃ u, exec (.ldImm 0xA 0x42#8) (at0 0x6A42#16) = .next u ∧ u.status = .running :=
  ⟨rfl, by decide, by decide, _, rfl, rfl⟩

theorem witness_StepRunsDecodedInstruction_fault :
    decodeWord (wordOfBytes (readByte (at0 0x00EE#16).mem 0x200) (readByte (at0 0x00EE#16).mem 0x201)) = .ret ∧
    ∃ u r, exec .ret (at0 0x00EE#16) = .next u ∧ u.status = .faulted r :=
  ⟨by decide, _, _, rfl, rfl⟩

theorem witness_FetchIsBigEndian : (base.setPc 0xFFE#16).pc.toNat + 1 < 4096 ∧ 65535 < 65536 := by decide

theorem witness_FetchRangeFaults : (base.setPc 0xFFF#16).status = .running ∧ 0xFFF ≤ (base.setPc 0xFFF#16).pc.toNat := by
  decide

theorem witness_FaultedIsKeptUntilReset : ∃ r, dead.status = .faulted r := ⟨_, rfl⟩

theorem witness_EventsAreAppendOnly : (∃ t, step (at0 0x8124#16) = .next t) ∧ ∃ t, step (at0 0x00E0#16) = .next t :=
  ⟨⟨_, rfl⟩, ⟨_, rfl⟩⟩

/-- The hypotheses of FaultsArePrecise and FaultsHaveFourCauses, for each of the four causes. -/
theorem witness_FaultsArePrecise_fetch : ∃ t r, step (base.setPc 0xFFF#16) = .next t ∧ t.status = .faulted r :=
  ⟨_, _, rfl, rfl⟩
theorem witness_FaultsArePrecise_ret : ∃ t r, step (at0 0x00EE#16) = .next t ∧ t.status = .faulted r :=
  ⟨_, _, rfl, rfl⟩
theorem witness_FaultsArePrecise_call : ∃ t r, step full = .next t ∧ t.status = .faulted r :=
  ⟨_, _, rfl, rfl⟩
theorem witness_FaultsArePrecise_block : ∃ t r, step ((at0 0xF055#16).setI 0x1000#16) = .next t ∧ t.status = .faulted r :=
  ⟨_, _, rfl, rfl⟩

theorem base_inv (op : Word) : RunInv (at0 op) :=
  ⟨writeBytes_wf _ _ (resetWith_mem_wf _), fun _ h => (nomatch h), fun _ h => (nomatch h),
    by show (0x200#16).toNat ≤ _; decide, fun _ h => (nomatch h)⟩

/-- The hypotheses of NextFetchFollowsTable, NextFetchNeverWraps and of SequencerRefinesStep's first clause. -/
theorem witness_NextFetchNeverWraps : RunInv (at0 0x2300#16) ∧ (at0 0x2300#16).status = .running ∧
    fetch (at0 0x2300#16) = some 0x2300#16 ∧ ∃ t, step (at0 0x2300#16) = .next t ∧ t.status = .running :=
  ⟨base_inv _, rfl, by decide, _, rfl, rfl⟩

theorem witness_OnlyControlTransfersWritePc :
    (∃ t, exec (.ldST 2) base = .next t) ∧ isControlTransfer (.ldST 2) = false := ⟨⟨_, rfl⟩, rfl⟩

theorem witness_RegisterWritersAreListed :
    (∃ t, exec (.loadBlock 3) base = .next t) ∧ mayWriteReg 4 (.loadBlock 3) = false := ⟨⟨_, rfl⟩, rfl⟩

/-- One witness a clause: each part does change in some dispatch. -/
theorem witness_EachPartHasItsWriters :
    (∃ t, exec (.ldI 0x300#12) base = .next t ∧ t.i ≠ base.i) ∧
    (∃ t, exec (.addI 0) (base.setReg 0 1#8) = .next t ∧ t.i ≠ base.i) ∧
    (∃ t, exec (.call 0x300#12) base = .next t ∧ t.stack ≠ base.stack) ∧
    (∃ t, exec .ret full = .next t ∧ t.stack ≠ full.stack) ∧
    (∃ t, exec (.ldDT 0) (base.setReg 0 1#8) = .next t ∧ t.dt ≠ base.dt) ∧
    (∃ t, exec (.ldST 0) (base.setReg 0 1#8) = .next t ∧ t.st ≠ base.st) ∧
    (∃ t, exec (.storeBlock 0) (base.setReg 0 1#8) = .next t ∧ t.mem ≠ base.mem) ∧
    (∃ t, exec .cls base = .next t ∧ t.events ≠ base.events) ∧
    (∃ t, exec (.sys 0x000#12) base = .next t ∧ t.events ≠ base.events) ∧
    ∃ t, exec (.rnd 0 0x00#8) base = .next t ∧ t.rndCount ≠ base.rndCount :=
  ⟨⟨_, rfl, by decide⟩, ⟨_, rfl, by decide⟩, ⟨_, rfl, by decide⟩, ⟨_, rfl, by decide⟩, ⟨_, rfl, by decide⟩,
    ⟨_, rfl, by decide⟩, ⟨_, rfl, by decide⟩, ⟨_, rfl, by decide⟩, ⟨_, rfl, by decide⟩, ⟨_, rfl, by decide⟩⟩

/-- The clause on the run status, for each of its four instructions. -/
theorem witness_EachPartHasItsWriters_status :
    (∃ t, exec .ret base = .next t ∧ t.status ≠ base.status) ∧
    (∃ t, exec (.call 0x300#12) full = .next t ∧ t.status ≠ full.status) ∧
    (∃ t, exec (.storeBlock 0) (base.setI 0x1000#16) = .next t ∧ t.status ≠ base.status) ∧
    ∃ t, exec (.loadBlock 0) (base.setI 0x1000#16) = .next t ∧ t.status ≠ base.status :=
  ⟨⟨_, rfl, by decide⟩, ⟨_, rfl, by decide⟩, ⟨_, rfl, by decide⟩, ⟨_, rfl, by decide⟩⟩

/-- The clause on the screen: a pixel that was set is cleared. -/
theorem witness_EachPartHasItsWriters_screen :
    ∃ t, exec .cls { base with screen := Vector.replicate 2048 true } = .next t ∧
      t.pixel 0 0 ≠ State.pixel { base with screen := Vector.replicate 2048 true } 0 0 := by
  refine ⟨_, rfl, ?_⟩
  simp only [State.pixel, State.displayClear_screen, base, State.resetWith_params, if_true, Vector.getElem_replicate]
  decide

theorem witness_SoundTimerScreenAndEventsAreNotRead : SameBut [.st, .screen, .events] base (base.setST 9#8) ∧
    (∃ t, step base = .next t) ∧ ∃ t, step (base.setST 9#8) = .next t :=
  ⟨(sameBut_setST _ _).mono (by simp), ⟨_, rfl⟩, ⟨_, rfl⟩⟩

theorem witness_StepKeepsRunInvariant : RunInv (at0 0xF055#16) ∧ ∃ t, step (at0 0xF055#16) = .next t :=
  ⟨base_inv _, _, rfl⟩

theorem witness_HostMovesKeepRunInvariant : RunInv (at0 0x6A42#16) ∧ ScreenDark (at0 0x6A42#16) ∧ HostMove (at0 0x6A42#16) (tick (at0 0x6A42#16)) ∧
    HostMove (at0 0x6A42#16) (hostReset true (at0 0x6A42#16)) ∧
    ∃ t, HostMove (at0 0x6A42#16) t ∧ t.loading = .closed :=
  ⟨base_inv _, State.resetWith_pixel { displayPresent := true, stackDepth := none }, .tick, .reset true, _, .load [0x60#8] _ rfl, rfl⟩

theorem witness_StepKeepsScreenDark : ScreenDark (at0 0x00E0#16) ∧ ∃ t, step (at0 0x00E0#16) = .next t :=
  ⟨State.resetWith_pixel { displayPresent := true, stackDepth := none }, _, rfl⟩

theorem witness_ReachableStatesMeetInvariants : ∃ t, step base = .next t ∧ Reachable t :=
  ⟨_, rfl, .step base _ (.reset { displayPresent := true, stackDepth := none }) rfl⟩

theorem witness_TickCountsDown : base.status = .running ∧ ∃ r, dead.status = .faulted r := ⟨rfl, _, rfl⟩

theorem witness_ResetLeavesTable : (∃ p, base = State.resetWith p) ∧ ∃ u, hostReset false dead = hostReset false u :=
  ⟨⟨_, rfl⟩, ⟨_, rfl⟩⟩

theorem witness_LoaderStoresImage : base.loading = .accepting ∧ base.status = .running ∧
    (List.replicate 3584 0x00#8).length ≤ 3584 := ⟨rfl, rfl, (List.length_replicate ..).le⟩

theorem witness_LoaderTurnsAway : (3584 < (List.replicate 3585 0x00#8).length) ∧
    (∃ t, loadImage [0x60#8] base = .next t) ∧ ∃ t, step base = .next t :=
  ⟨by rw [List.length_replicate]; omega, ⟨_, rfl⟩, ⟨_, rfl⟩⟩

theorem witness_NotImplementedReportsOnly : isNotImplemented (.sys 0x123#12) = true ∧
    isNotImplemented (.addRegNI 1 2) = true ∧ isNotImplemented (.aluOtherNI 1 2 0x5#4) = true ∧
    isNotImplemented (.sneRegNI 1 2 0x0#4) = true ∧ isNotImplemented (.drwNI 0 1 0x5#4) = true ∧
    isNotImplemented (.keyNI 1 0x9E#8) = true ∧ isNotImplemented (.keyWaitNI 1) = true ∧
    isNotImplemented (.glyphNI 1) = true ∧ isNotImplemented (.bcdNI 1) = true ∧
    isNotImplemented (.fOtherNI 0 0x00#8) = true := by decide

theorem witness_NotImplementedRunsOn : (at0 0xD015#16).status = .running ∧ fetch (at0 0xD015#16) = some 0xD015#16 ∧
    isNotImplemented (decodeWord 0xD015#16) = true := by decide

theorem witness_ClearScreenEffect : base.params.displayPresent = true ∧
    (State.resetWith { displayPresent := false, stackDepth := none }).params.displayPresent = false := by decide

theorem witness_ReturnPopsOrUnderflows : (base.pushStack 0x204#16).stack = [] ++ [0x204#16] ∧ base.stack = [] := by decide

/-- The step clause of JumpEffect. -/
theorem witness_JumpEffect : (at0 0x1FFF#16).status = .running ∧
    fetch (at0 0x1FFF#16) = some (encode (.jp 0xFFF#12)) := by decide

theorem witness_CallPushesOrOverflows : base.params.stackDepth ≠ some base.stack.length ∧
    full.params.stackDepth = some full.stack.length := by decide

theorem witness_StoreBlockEffect : (base.setI 0xFF0#16).i.toNat + (15 : RegIdx).val < 4096 ∧
    4096 ≤ (base.setI 0xFF1#16).i.toNat + (15 : RegIdx).val := by decide

theorem witness_LoadBlockEffect : (base.setI 0xFFF#16).i.toNat + (0 : RegIdx).val < 4096 ∧
    4096 ≤ (base.setI 0x1000#16).i.toNat + (0 : RegIdx).val := by decide

theorem witness_ReturnResumesAfterCall : (at0 0x2300#16).status = .running ∧
    fetch (at0 0x2300#16) = some (encode (.call 0x300#12)) ∧
    (at0 0x2300#16).params.stackDepth ≠ some (at0 0x2300#16).stack.length ∧
    (∃ t, step (at0 0x2300#16) = .next t ∧ (placeWord t 0x00EE#16).stack = t.stack ∧
      (placeWord t 0x00EE#16).status = .running) ∧
    fetch (placeWord ((at0 0x2300#16).setPc 0x302#16) 0x00EE#16) = some 0x00EE#16 :=
  ⟨rfl, by decide, by decide, ⟨_, rfl, rfl, rfl⟩, by decide⟩

theorem witness_LoadAfterStoreRestoresRegisters : (base.setI 0x300#16).i.toNat + (3 : RegIdx).val < 4096 ∧
    ∃ t, exec (.storeBlock 3) (base.setI 0x300#16) = .next t ∧ t.i = (base.setI 0x300#16).i :=
  ⟨by decide, _, rfl, rfl⟩

theorem witness_StoredWordIsFetched : ((at0 0xF155#16).setI 0x202#16).status = .running ∧
    fetch ((at0 0xF155#16).setI 0x202#16) = some (encode (.storeBlock 1)) ∧
    ((at0 0xF155#16).setI 0x202#16).i.toNat + (1 : RegIdx).val < 4096 ∧
    (1 : RegIdx).val = (0 : RegIdx).val + 1 ∧ (1 : RegIdx) ≤ 1 ∧
    (∃ t, step ((at0 0xF155#16).setI 0x202#16) = .next t ∧
      t.pc.toNat = ((at0 0xF155#16).setI 0x202#16).i.toNat + (0 : RegIdx).val) :=
  ⟨rfl, by decide, by decide, rfl, le_rfl, _, rfl, by decide⟩

/-- The second clause of SequencerRefinesStep: a step that faults. -/
theorem witness_SequencerRefinesStep_fault : (at0 0x00EE#16).status = .running ∧
    ∃ t r, step (at0 0x00EE#16) = .next t ∧ t.status = .faulted r := ⟨rfl, _, _, rfl, rfl⟩

/-- The sequencer in a phase, with an opcode in IR. -/
def seqAt (phase : Phase) (ir : Word) (s : State) : Sequencer := { phase := phase, ir := ir, micro := none, core := s }

/-- The inputs of a phase with reset asserted. -/
def resetOn : SequencerInputs := { reset := .asserted true, rndValid := false, clrDone := false }

/-- 45_execution_loop.md R116: reset takes HALT to RESET and a running core. -/
theorem test_sequencer_reset_from_halt : (phaseStep resetOn (seqAt .halt 0x00EE#16 dead)).phase = .reset ∧
    (phaseStep resetOn (seqAt .halt 0x00EE#16 dead)).core.status = .running := by decide

/-- Each clause of SequencerResetAndHalt has a line and a phase that meet its hypotheses. -/
theorem witness_SequencerResetAndHalt : resetOn.reset = .asserted true ∧
    SequencerInputs.answered.reset = .released ∧ (seqAt .halt 0x00EE#16 dead).phase = .halt ∧
    (seqAt .halt 0x00EE#16 dead).phase ≠ .reset ∧ (seqAt .reset 0x0000#16 base).phase = .reset := by decide

/-- The clauses on what enters HALT: a fetch at 0xFFF, and EXEC of RET on an empty stack and of Fx55 past the top. -/
theorem witness_SequencerResetAndHalt_entry :
    fetch (seqAt .fetchHi 0x0000#16 (base.setPc 0xFFF#16)).core = none ∧
    (∃ t r, exec (decodeWord (seqAt .exec 0x00EE#16 base).ir) base = .next t ∧ t.status = .faulted r) ∧
    (∃ t r, exec (decodeWord 0xF055#16) (base.setI 0x1000#16) = .next t ∧ t.status = .faulted r) ∧
    (phaseStep .answered (seqAt .exec 0xF055#16 (base.setI 0x1000#16))).phase = .halt :=
  ⟨by decide, ⟨_, _, rfl, rfl⟩, ⟨_, _, rfl, rfl⟩, by decide⟩

/-- From HALT, and from RESET as after construction. -/
theorem witness_SequencerBoots : (seqAt .halt 0x00EE#16 dead).phase ≠ .reset ∧
    ((seqAt .reset 0x0000#16 base).phase = .reset ∧ ∃ p, (seqAt .reset 0x0000#16 base).core = State.resetWith p) ∧
    (∃ d u, (seqAt .reset 0x0000#16 (hostReset true dead)).core = hostReset d u) ∧ resetOn.reset = .asserted true ∧
    SequencerInputs.answered.reset = .released ∧ (List.replicate 3584 0x60#8).length ≤ 3584 :=
  ⟨by decide, ⟨rfl, _, rfl⟩, ⟨_, _, rfl⟩, rfl, rfl, (List.length_replicate ..).le⟩

/-- The waits of SequencerWaits, each unanswered and answered, and 00E0 without a display. -/
theorem witness_SequencerWaits :
    (seqAt .exec 0xC30F#16 base).phase = .exec ∧ (seqAt .exec 0xC30F#16 base).core.status = .running ∧
    decodeWord (seqAt .exec 0xC30F#16 base).ir = .rnd 3 0x0F#8 ∧ decodeWord (seqAt .exec 0x00E0#16 base).ir = .cls ∧
    base.params.displayPresent = true ∧
    (State.resetWith { displayPresent := false, stackDepth := none }).params.displayPresent = false ∧
    SequencerInputs.answered.rndValid = true ∧ SequencerInputs.answered.clrDone = true ∧
    (SequencerInputs.mk .released false false).rndValid = false ∧
    (SequencerInputs.mk .released false false).clrDone = false := by decide

end Sys2Proof.Tests
end

section
/-! PROOFS. The opcode a fetched instruction is encoded to again (30_encoding.md R54, R58 to R63): events and fault
records carry it. -/
namespace Sys2Proof

section families
variable {w : Word} {f : Nibble}

theorem wordNNN_of_family (hf : familyField w = f) : wordNNN f (nnnField w) = w := by
  subst hf; exact wordNNN_fields w

theorem wordXNN_of_fields {nn : Byte} (hf : familyField w = f) (hn : nnField w = nn) :
    wordXNN f (xField w) nn = w := by
  subst hf hn; exact wordXNN_fields w

theorem wordXYN_of_fields {n : Nibble} (hf : familyField w = f) (hn : nField w = n) :
    wordXYN f (xField w) (yField w) n = w := by
  subst hf hn; exact wordXYN_fields w

theorem encode_decodeZero (hf : familyField w = 0x0#4) : encode (decodeZero w) = w := by
  unfold decodeZero
  split
  · next h => exact h.symm
  · split
    · next h => exact h.symm
    · exact wordNNN_of_family hf

theorem encode_decodeAlu (hf : familyField w = 0x8#4) : encode (decodeAlu w) = w := by
  unfold decodeAlu
  split
  case h_6 => exact wordXYN_of_fields hf rfl
  all_goals next hn => exact wordXYN_of_fields hf hn

theorem encode_decodeMisc (hf : familyField w = 0xF#4) : encode (decodeMisc w) = w := by
  unfold decodeMisc
  split
  case h_10 => exact wordXNN_of_fields hf rfl
  all_goals next hn => exact wordXNN_of_fields hf hn

end families

theorem decodeWord_familyFive {w : Word} (hf : familyField w = 0x5#4) :
    decodeWord w = .seReg (xField w) (yField w) := by
  unfold decodeWord; rw [hf]; rfl

/-- The one family whose encoding loses a field is 5xyn (R63). -/
theorem encode_decodeWord {w : Word} (h5 : familyField w ≠ 0x5#4) : encode (decodeWord w) = w := by
  unfold decodeWord
  split
  · next hf => exact encode_decodeZero hf
  · next hf => exact wordNNN_of_family hf
  · next hf => exact wordNNN_of_family hf
  · next hf => exact wordXNN_of_fields hf rfl
  · next hf => exact wordXNN_of_fields hf rfl
  · next hf => exact absurd hf h5
  · next hf => exact wordXNN_of_fields hf rfl
  · next hf => exact wordXNN_of_fields hf rfl
  · next hf => exact encode_decodeAlu hf
  · next hf => exact wordXYN_of_fields hf rfl
  · next hf => exact wordNNN_of_family hf
  · next hf => exact wordNNN_of_family hf
  · next hf => exact wordXNN_of_fields hf rfl
  · next hf => exact wordXYN_of_fields hf rfl
  · next hf => exact wordXNN_of_fields hf rfl
  · refine encode_decodeMisc ?_
    simp only [imp_false] at *
    bv_omega

theorem encode_decodeWord_of_ne_seReg {w : Word} {i : Instr} (h : decodeWord w = i)
    (hi : ∀ x y, i ≠ .seReg x y) : encode i = w := by
  subst h
  exact encode_decodeWord fun hf => hi _ _ (decodeWord_familyFive hf)

end Sys2Proof
end

section
/-! PROOFS. What one dispatch may write, said once for all instructions (40_dispatcher.md R71: "a location a rule does
not name is unchanged"), and the value it gives to each part it may write. -/
namespace Sys2Proof.Machine

/-- The parts of the state an instruction may write, the run status included where it may fault; `exec_frame` ties the
table to `exec`. -/
def execWrites : Instr → List Part
  | .cls => [.screen, .events]
  | .ret | .call _ => [.stack, .pc, .status]
  | .jp _ | .jpV0 _ | .seImm _ _ | .sneImm _ _ | .seReg _ _ => [.pc]
  | .ldImm _ _ | .addImm _ _ | .ldReg _ _ | .orReg _ _ | .andReg _ _ | .xorReg _ _ | .ldVxDT _ => [.regs]
  | .rnd _ _ => [.regs, .rndCount]
  | .ldI _ | .addI _ => [.index]
  | .ldDT _ => [.dt]
  | .ldST _ => [.st]
  | .storeBlock _ => [.mem, .status]
  | .loadBlock _ => [.regs, .status]
  | .sys _ | .addRegNI _ _ | .aluOtherNI _ _ _ | .sneRegNI _ _ _ | .drwNI _ _ _ | .keyNI _ _ | .keyWaitNI _
  | .glyphNI _ | .bcdNI _ | .fOtherNI _ _ => [.events]

variable {i : Instr} {s t : State}

/-- Every dispatch leaves the parts the table does not list for its instruction. -/
theorem exec_frame (h : exec i s = .next t) : SameBut (execWrites i) s t := by
  cases i with
  | cls => cases h; exact sameBut_displayClear s
  | ret =>
    cases h
    cases s.topStack with
    | none => exact (sameBut_takeFault s _ _ _).mono (by simp [execWrites])
    | some a =>
      exact ((sameBut_dropStack s).mono (by simp [execWrites])).trans
        ((sameBut_setPc _ a).mono (by simp [execWrites]))
  | call nnn =>
    cases h
    split
    · exact (sameBut_takeFault s _ _ _).mono (by simp [execWrites])
    · exact ((sameBut_pushStack s _).mono (by simp [execWrites])).trans
        ((sameBut_setPc _ _).mono (by simp [execWrites]))
  | jp | jpV0 => cases h; exact sameBut_setPc s _
  | seImm | sneImm | seReg => cases h; exact sameBut_skipIf _ s
  | ldImm | addImm | ldReg | orReg | andReg | xorReg | ldVxDT => cases h; exact sameBut_setReg s _ _
  | rnd x nn =>
    cases h
    exact ((sameBut_countDraw s).mono (by simp [execWrites])).trans
      ((sameBut_setReg _ x _).mono (by simp [execWrites]))
  | ldI | addI => cases h; exact sameBut_setI s _
  | ldDT => cases h; exact sameBut_setDT s _
  | ldST => cases h; exact sameBut_setST s _
  | storeBlock x =>
    cases h
    split
    · exact (sameBut_storeRegs s x).mono (by simp [execWrites])
    · exact (sameBut_takeFault s _ _ _).mono (by simp [execWrites])
  | loadBlock x =>
    cases h
    split
    · exact (sameBut_loadRegs s x).mono (by simp [execWrites])
    · exact (sameBut_takeFault s _ _ _).mono (by simp [execWrites])
  | sys | addRegNI | aluOtherNI | sneRegNI | drwNI | keyNI | keyWaitNI | glyphNI | bcdNI | fOtherNI =>
    cases h; exact sameBut_reportNI s _

/-- A part that a dispatch changed is one the table lists. -/
theorem mem_execWrites_of_changed (h : exec i s = .next t) {p : Part} (hp : ¬ Part.same s t p) :
    p ∈ execWrites i :=
  not_imp_comm.1 (exec_frame h p) hp

/-! ### The table read by part -/

theorem index_mem_execWrites (h : .index ∈ execWrites i) : (∃ nnn, i = .ldI nnn) ∨ ∃ x, i = .addI x := by
  cases i with
  | ldI nnn => exact .inl ⟨nnn, rfl⟩
  | addI x => exact .inr ⟨x, rfl⟩
  | _ => simp [execWrites] at h

theorem stack_mem_execWrites (h : .stack ∈ execWrites i) : i = .ret ∨ ∃ nnn, i = .call nnn := by
  cases i with
  | ret => exact .inl rfl
  | call nnn => exact .inr ⟨nnn, rfl⟩
  | _ => simp [execWrites] at h

theorem dt_mem_execWrites (h : .dt ∈ execWrites i) : ∃ x, i = .ldDT x := by
  cases i with
  | ldDT x => exact ⟨x, rfl⟩
  | _ => simp [execWrites] at h

theorem st_mem_execWrites (h : .st ∈ execWrites i) : ∃ x, i = .ldST x := by
  cases i with
  | ldST x => exact ⟨x, rfl⟩
  | _ => simp [execWrites] at h

theorem screen_mem_execWrites (h : .screen ∈ execWrites i) : i = .cls := by
  cases i with
  | cls => rfl
  | _ => simp [execWrites] at h

theorem events_mem_execWrites (h : .events ∈ execWrites i) : i = .cls ∨ isNotImplemented i = true := by
  cases i with
  | cls => exact .inl rfl
  | sys | addRegNI | aluOtherNI | sneRegNI | drwNI | keyNI | keyWaitNI | glyphNI | bcdNI | fOtherNI =>
    exact .inr rfl
  | _ => simp [execWrites] at h

theorem status_mem_execWrites (h : .status ∈ execWrites i) :
    i = .ret ∨ (∃ nnn, i = .call nnn) ∨ ∃ x, i = .storeBlock x ∨ i = .loadBlock x := by
  cases i with
  | ret => exact .inl rfl
  | call nnn => exact .inr (.inl ⟨nnn, rfl⟩)
  | storeBlock x => exact .inr (.inr ⟨x, .inl rfl⟩)
  | loadBlock x => exact .inr (.inr ⟨x, .inr rfl⟩)
  | _ => simp [execWrites] at h

theorem rndCount_mem_execWrites (h : .rndCount ∈ execWrites i) : ∃ x nn, i = .rnd x nn := by
  cases i with
  | rnd x nn => exact ⟨x, nn, rfl⟩
  | _ => simp [execWrites] at h

/-! ### The values a dispatch gives -/

/-- A not-implemented instruction reports its opcode and does nothing else (R69). -/
theorem exec_of_isNotImplemented (hi : isNotImplemented i = true) (s : State) :
    exec i s = .next (s.reportNI (encode i)) := by
  cases i with
  | sys | addRegNI | aluOtherNI | sneRegNI | drwNI | keyNI | keyWaitNI | glyphNI | bcdNI | fOtherNI => rfl
  | _ => cases hi

theorem exec_events (h : exec i s = .next t) : t.events = s.events ∨
    (isNotImplemented i = true ∧ t.events = s.events ++ [.notImplemented s.pc (encode i)]) ∨
    (i = .cls ∧ s.params.displayPresent = true ∧ t.events = s.events ++ [.displayClear s.pc]) := by
  by_cases hw : .events ∈ execWrites i
  · rcases events_mem_execWrites hw with rfl | hi
    · cases h
      cases hd : s.params.displayPresent with
      | false => simp [hd]
      | true => simp [hd]
    · rw [exec_of_isNotImplemented hi] at h
      cases h
      exact .inr (.inl ⟨hi, rfl⟩)
  · exact .inl (exec_frame h .events hw)

theorem exec_screen (h : exec i s = .next t) : t.screen = s.screen ∨ t.screen = Vector.replicate 2048 false := by
  by_cases hw : .screen ∈ execWrites i
  · obtain rfl := screen_mem_execWrites hw
    cases h
    rw [State.displayClear_screen]
    split
    · exact .inr rfl
    · exact .inl rfl
  · exact .inl (exec_frame h .screen hw)

/-- The stack after a dispatch: popped by RET, pushed on by CALL where it is not full, else as before. -/
theorem exec_stack (h : exec i s = .next t) : t.stack = s.stack ∨ t.stack = s.stack.dropLast ∨
    (t.stack = s.stack ++ [s.pc] ∧ s.params.stackDepth ≠ some s.stack.length) := by
  by_cases hw : .stack ∈ execWrites i
  · rcases stack_mem_execWrites hw with rfl | ⟨nnn, rfl⟩
    · cases h
      cases s.topStack with
      | none => exact .inl rfl
      | some a => exact .inr (.inl rfl)
    · cases h
      by_cases hf : s.stackFull = true
      · rw [if_pos hf]; exact .inl rfl
      · rw [if_neg hf]; exact .inr (.inr ⟨rfl, fun hd => hf ((stackFull_iff s).2 hd)⟩)
  · exact .inl (exec_frame h .stack hw)

/-- A dispatch that leaves a running block faulted took a fault and did nothing else (60_exceptions.md R118). -/
theorem exec_faulted {r : FaultRecord} (h : exec i s = .next t) (hs : s.status = .running)
    (ht : t.status = .faulted r) : ∃ code op addr, t = s.takeFault code op addr := by
  rcases exec_status_cases h with hst | ⟨-, -, rfl⟩ | ⟨-, -, -, rfl⟩ | ⟨-, -, -, rfl⟩
  · rw [hst, hs] at ht; cases ht
  all_goals exact ⟨_, _, _, rfl⟩

/-- No dispatch makes a faulted block run: the status is kept or becomes a new record. -/
theorem exec_status_ne_running {r : FaultRecord} (h : exec i s = .next t) (hs : s.status = .faulted r) :
    t.status ≠ .running := by
  rcases exec_status_cases h with hst | ⟨-, -, rfl⟩ | ⟨-, -, -, rfl⟩ | ⟨-, -, -, rfl⟩
  · rw [hst, hs]; nofun
  all_goals exact nofun

theorem skipIf_pc_le (c : Bool) (s : State) : (skipIf c s).pc.toNat ≤ s.pc.toNat + 2 := by
  cases c with
  | false => exact Nat.le_add_right _ _
  | true => exact (twoOn_toNat s.pc).trans_le (Nat.mod_le _ _)

/-- Dispatch from an address that was fetched from, with return addresses that were: the highest `pc` is that of an
indexed jump, 0xFFF + 0xFF (45_execution_loop.md R114). -/
theorem exec_pc_le (h : exec i s = .next t) (hpc : s.pc.toNat ≤ 0xFFE) (he : StackEntriesFetched s) :
    t.pc.toNat ≤ 0x10FE := by
  have hkeep : s.pc.toNat ≤ 0x10FE := by omega
  have hskip (c : Bool) : (skipIf c s).pc.toNat ≤ 0x10FE := (skipIf_pc_le c s).trans (by omega)
  cases i with
  | ret =>
    cases h
    cases ha : s.topStack with
    | none => exact hkeep
    | some a => exact (he a (List.mem_of_getLast? ha)).trans (by omega)
  | call nnn =>
    cases h
    split
    · exact hkeep
    · exact (zext16_toNat nnn).trans_le (by omega)
  | jp nnn => cases h; exact (zext16_toNat nnn).trans_le (by omega)
  | jpV0 nnn => cases h; exact (indexedTarget_toNat nnn _).trans_le (by omega)
  | seImm | sneImm | seReg => cases h; exact hskip _
  | _ =>
    have hp : t.pc = s.pc := exec_frame h .pc (by simp [execWrites])
    rwa [hp]

/-- Registers outside the table's column of writes (10_state.md R19). -/
theorem exec_reg {k : RegIdx} (h : exec i s = .next t) (hk : mayWriteReg k i = false) : t.reg k = s.reg k := by
  cases i with
  | ldImm | addImm | ldReg | orReg | andReg | xorReg | ldVxDT | rnd =>
    cases h
    exact (State.setReg_reg _ _ k _).trans (if_neg (beq_eq_false_iff_ne.1 hk))
  | loadBlock x =>
    cases h
    split
    · exact (reg_loadRegs s x k).trans (if_neg (of_decide_eq_false hk))
    · rfl
  | _ => exact exec_frame h .regs (by simp [execWrites]) k

end Sys2Proof.Machine
end

section
/-! PROOFS. The invariants of a run: reset meets them, every step and every move of the host keeps them (10_state.md R35,
R36, 45_execution_loop.md R114). -/
namespace Sys2Proof.Machine

variable {i : Instr} {s t u : State}

/-! ### The run invariant -/

theorem runInv_resetWith (p : Params) : RunInv (State.resetWith p) where
  mem := resetWith_mem_wf p
  entries := fun _ he => nomatch he
  depth := fun _ _ => Nat.zero_le _
  pc := by rw [State.resetWith_pc]; decide
  record := fun _ h => nomatch h

/-- A fault is recorded at `pc`, and changes nothing the rest of the invariant speaks of. -/
theorem RunInv.takeFault (h : RunInv s) (code : FaultCode) (op addr : Option Word) :
    RunInv (s.takeFault code op addr) where
  mem := h.mem
  entries := h.entries
  depth := h.depth
  pc := h.pc
  record := by rintro r ⟨⟩; rfl

/-- Dispatch keeps the stack entries fetched from: CALL pushes its own address, which was. -/
theorem exec_stackEntriesFetched (h : exec i s = .next t) (hpc : s.pc.toNat ≤ 0xFFE) (he : StackEntriesFetched s) :
    StackEntriesFetched t := by
  intro e hmem
  rcases exec_stack h with hst | hst | ⟨hst, -⟩ <;> rw [hst] at hmem
  · exact he e hmem
  · exact he e (List.mem_of_mem_dropLast hmem)
  · rcases List.mem_append.1 hmem with hmem | hmem
    · exact he e hmem
    · rwa [List.mem_singleton.1 hmem]

/-- Dispatch keeps the stack within its depth: CALL pushes only where it is not full. -/
theorem exec_stackWithinDepth (h : exec i s = .next t) (hd : StackWithinDepth s) : StackWithinDepth t := by
  intro d hdt
  obtain ⟨hparams, -, -⟩ := exec_own_fields h
  rw [hparams] at hdt
  have hle : s.stack.length ≤ d := hd d hdt
  rcases exec_stack h with hst | hst | ⟨hst, hnot⟩ <;> rw [hst]
  · exact hle
  · exact List.length_dropLast.trans_le ((Nat.sub_le _ _).trans hle)
  · have hne : s.stack.length ≠ d := fun he => hnot (he ▸ hdt)
    rw [List.length_append, List.length_singleton]
    omega

/-- The advance and the boundary after a dispatch that did not fault: `pc` goes two on from at most 0x10FE. -/
theorem RunInv.exec_advance (h : RunInv s) (hpc : s.pc.toNat ≤ 0xFFE) (hx : exec i s = .next u)
    (hu : u.status = .running) : RunInv (atBoundary (u.setPc (twoOn u.pc))) where
  mem := by simpa using exec_mem_wf hx h.mem
  entries := by simpa [StackEntriesFetched] using exec_stackEntriesFetched hx hpc h.entries
  depth := by simpa [StackWithinDepth] using exec_stackWithinDepth hx h.depth
  pc := by
    have hle : u.pc.toNat ≤ 0x10FE := exec_pc_le hx hpc h.entries
    rw [atBoundary_pc, State.setPc_pc, twoOn_toNat]
    omega
  record := fun r hr => by simp [hu] at hr

theorem RunInv.step (h : RunInv s) (hstep : step s = .next t) : RunInv t := by
  rcases step_cases hstep with ⟨r, -, rfl⟩ | ⟨-, -, rfl⟩ | ⟨op, u, hs, hf, hx, hend⟩
  · exact h
  · exact h.takeFault _ _ _
  · obtain ⟨hrange, -⟩ := fetch_some_iff.1 hf
    rcases hend with ⟨r, hu, rfl⟩ | ⟨hu, rfl⟩
    · obtain ⟨code, op', addr, rfl⟩ := exec_faulted hx hs hu
      exact h.takeFault _ _ _
    · exact h.exec_advance (by omega) hx hu

/-! ### The dark screen -/

theorem screenDark_resetWith (p : Params) : ScreenDark (State.resetWith p) := State.resetWith_pixel p

theorem ScreenDark.of_screen_eq (h : ScreenDark s) (he : t.screen = s.screen) : ScreenDark t := by
  intro c r
  simpa [State.pixel, he] using h c r

theorem screenDark_of_cleared (he : t.screen = Vector.replicate 2048 false) : ScreenDark t := by
  intro c r
  simp [State.pixel, he]

/-- A step leaves the screen or clears it. -/
theorem step_screen (h : step s = .next t) : t.screen = s.screen ∨ t.screen = Vector.replicate 2048 false := by
  rcases step_cases h with ⟨r, -, rfl⟩ | ⟨-, -, rfl⟩ | ⟨op, u, -, -, hx, hend⟩
  · exact .inl rfl
  · exact .inl rfl
  · rcases hend with ⟨r, -, rfl⟩ | ⟨-, rfl⟩
    · exact exec_screen hx
    · simpa using exec_screen hx

theorem ScreenDark.step (h : ScreenDark s) (hstep : step s = .next t) : ScreenDark t := by
  rcases step_screen hstep with he | he
  · exact h.of_screen_eq he
  · exact screenDark_of_cleared he

/-! ### Moves of the host -/

theorem tick_eq_self_or_timers (s : State) :
    tick s = s ∨ tick s = (s.setDT (countdown s.dt)).setST (countdown s.st) := by
  cases h : s.status with
  | faulted r => exact .inl (tick_faulted h)
  | running => exact .inr (tick_running h)

theorem RunInv.hostMove (h : RunInv s) (hm : HostMove s t) : RunInv t := by
  cases hm with
  | tick =>
    rcases tick_eq_self_or_timers s with he | he <;> rw [he]
    · exact h
    · exact ⟨h.mem, h.entries, h.depth, h.pc, h.record⟩
  | reset present =>
    obtain ⟨hmem, hentries, hdepth, hpc, hrecord⟩ := runInv_resetWith ⟨present, s.params.stackDepth⟩
    exact ⟨hmem, hentries, hdepth, hpc, hrecord⟩
  | load image _ hload =>
    obtain ⟨-, -, -, rfl⟩ := loadImage_next hload
    exact ⟨writeBytes_wf _ _ h.mem, h.entries, h.depth, h.pc, h.record⟩

theorem ScreenDark.hostMove (h : ScreenDark s) (hm : HostMove s t) : ScreenDark t := by
  cases hm with
  | tick => rcases tick_eq_self_or_timers s with he | he <;> rw [he] <;> exact h
  | reset present => exact screenDark_of_cleared rfl
  | load image _ hload =>
    obtain ⟨-, -, -, rfl⟩ := loadImage_next hload
    exact h

/-! ### The obligations -/

/-- Settles O23: by the cases of a step. A step that holds keeps it, a fault is recorded at `pc`, and a dispatch that does
not fault leaves `pc` at most 0x10FE before the advance. -/
theorem stepKeepsRunInvariant : Obligations.StepKeepsRunInvariant :=
  fun _ _ h hstep => h.step hstep

/-- Settles O24; the core of the host is one of the builds. -/
theorem resetMeetsRunInvariant : Obligations.ResetMeetsRunInvariant :=
  ⟨runInv_resetWith, runInv_resetWith _⟩

/-- Settles O26: the one write of the screen clears it. -/
theorem stepKeepsScreenDark : Obligations.StepKeepsScreenDark :=
  fun _ _ h hstep => h.step hstep

/-- Settles O27, by induction on the run. -/
theorem reachableStatesMeetInvariants : Obligations.ReachableStatesMeetInvariants := by
  intro s hs
  induction hs with
  | reset p => exact ⟨runInv_resetWith p, screenDark_resetWith p⟩
  | step s t _ hstep ih =>
    obtain ⟨hinv, hdark⟩ := ih
    exact ⟨hinv.step hstep, hdark.step hstep⟩
  | host s t _ hm ih =>
    obtain ⟨hinv, hdark⟩ := ih
    exact ⟨hinv.hostMove hm, hdark.hostMove hm⟩

end Sys2Proof.Machine
end

section
/-! PROOFS. ST, the screen and the events are read by no instruction (10_state.md R28, R29, R31): two states that agree
on everything else go on agreeing. -/
namespace Sys2Proof.Machine

/-- Two states agree on all that an instruction may read: every part but ST, the screen and the events. -/
structure ReadAlike (s s' : State) : Prop where
  v : s'.v = s.v
  i : s'.i = s.i
  pc : s'.pc = s.pc
  stack : s'.stack = s.stack
  dt : s'.dt = s.dt
  mem : ∀ a, readByte s'.mem a = readByte s.mem a
  status : s'.status = s.status
  params : s'.params = s.params
  rndCount : s'.rndCount = s.rndCount
  boundary : s'.boundary = s.boundary
  loading : s'.loading = s.loading

variable {s s' t t' : State}

theorem readAlike_of_sameBut (h : SameBut [.st, .screen, .events] s s') : ReadAlike s s' where
  v := s.v_eq_of_reg s' (h .regs (by decide))
  i := h .index (by decide)
  pc := h .pc (by decide)
  stack := h .stack (by decide)
  dt := h .dt (by decide)
  mem := h .mem (by decide)
  status := h .status (by decide)
  params := h .params (by decide)
  rndCount := h .rndCount (by decide)
  boundary := h .boundary (by decide)
  loading := h .loading (by decide)

namespace ReadAlike

theorem reg (h : ReadAlike s s') (k : RegIdx) : s'.reg k = s.reg k := by
  simp only [State.reg, h.v]

theorem sameBut (h : ReadAlike s s') : SameBut [.st, .screen, .events] s s' := by
  intro p hp
  cases p with
  | regs => exact h.reg
  | index => exact h.i
  | pc => exact h.pc
  | stack => exact h.stack
  | dt => exact h.dt
  | mem => exact h.mem
  | status => exact h.status
  | params => exact h.params
  | rndCount => exact h.rndCount
  | boundary => exact h.boundary
  | loading => exact h.loading
  | st | screen | events => simp at hp

/-! Each update of the state, given values that agree. -/

theorem setReg (h : ReadAlike s s') (r : RegIdx) {b b' : Byte} (hb : b' = b) :
    ReadAlike (s.setReg r b) (s'.setReg r b') :=
  { h with v := by rw [State.setReg_v, State.setReg_v, h.v, hb] }

theorem setI (h : ReadAlike s s') {a a' : Word} (ha : a' = a) : ReadAlike (s.setI a) (s'.setI a') :=
  { h with i := ha }

theorem setPc (h : ReadAlike s s') {a a' : Word} (ha : a' = a) : ReadAlike (s.setPc a) (s'.setPc a') :=
  { h with pc := ha }

theorem setDT (h : ReadAlike s s') {b b' : Byte} (hb : b' = b) : ReadAlike (s.setDT b) (s'.setDT b') :=
  { h with dt := hb }

theorem setST (h : ReadAlike s s') (b b' : Byte) : ReadAlike (s.setST b) (s'.setST b') := { h with }

theorem pushStack (h : ReadAlike s s') {a a' : Word} (ha : a' = a) :
    ReadAlike (s.pushStack a) (s'.pushStack a') :=
  { h with stack := by rw [State.pushStack_stack, State.pushStack_stack, h.stack, ha] }

theorem dropStack (h : ReadAlike s s') : ReadAlike s.dropStack s'.dropStack :=
  { h with stack := by rw [State.dropStack_stack, State.dropStack_stack, h.stack] }

theorem reportNI (h : ReadAlike s s') (op : Word) : ReadAlike (s.reportNI op) (s'.reportNI op) := { h with }

theorem displayClear (h : ReadAlike s s') : ReadAlike s.displayClear s'.displayClear := { h with }

theorem countDraw (h : ReadAlike s s') : ReadAlike s.countDraw s'.countDraw :=
  { h with rndCount := congrArg (· + 1) h.rndCount }

theorem takeFault (h : ReadAlike s s') (code : FaultCode) (op : Option Word) {addr addr' : Option Word}
    (ha : addr' = addr) : ReadAlike (s.takeFault code op addr) (s'.takeFault code op addr') :=
  { h with status := by rw [State.takeFault_status, State.takeFault_status, h.pc, ha] }

theorem skipIf (h : ReadAlike s s') {c c' : Bool} (hc : c' = c) :
    ReadAlike (skipIf c s) (skipIf c' s') := by
  rw [skipIf_eq, skipIf_eq, hc, h.pc]
  exact h.setPc rfl

theorem storeRegs (h : ReadAlike s s') {x : RegIdx} (hx : s.i.toNat + x.val < 4096) :
    ReadAlike (storeRegs s x) (storeRegs s' x) := by
  have hmem (a : Nat) : readByte (Machine.storeRegs s' x).mem a = readByte (Machine.storeRegs s x).mem a := by
    rw [readByte_storeRegs s' x a (by rwa [h.i]), readByte_storeRegs s x a hx, h.i, h.mem, h.reg]
  rw [storeRegs_eq s x, storeRegs_eq s' x]
  exact { h with mem := hmem }

theorem loadRegs (h : ReadAlike s s') (x : RegIdx) : ReadAlike (loadRegs s x) (loadRegs s' x) := by
  have hreg (k : RegIdx) : (Machine.loadRegs s' x).reg k = (Machine.loadRegs s x).reg k := by
    rw [reg_loadRegs, reg_loadRegs, h.mem, h.i, h.reg]
  have hv := State.v_eq_of_reg _ _ hreg
  rw [loadRegs_eq s x, loadRegs_eq s' x]
  exact { h with v := hv }

theorem atBoundary (h : ReadAlike s s') : ReadAlike (atBoundary s) (atBoundary s') := by
  cases hs : s.status with
  | faulted r => rwa [atBoundary_faulted hs, atBoundary_faulted (h.status.trans hs)]
  | running =>
    rw [atBoundary_running hs, atBoundary_running (h.status.trans hs)]
    have hdt : countdownBy (Config.ticksAt s'.boundary) s'.dt = countdownBy (Config.ticksAt s.boundary) s.dt := by
      rw [h.boundary, h.dt]
    exact { h with dt := hdt, boundary := congrArg (· + 1) h.boundary, loading := rfl }

/-! The conditions an instruction or the fetch looks at. -/

theorem topStack (h : ReadAlike s s') : s'.topStack = s.topStack := congrArg List.getLast? h.stack

theorem stackFull (h : ReadAlike s s') : s'.stackFull = s.stackFull := by
  simp only [State.stackFull, h.params, h.stack]

theorem blockInRange (h : ReadAlike s s') (x : RegIdx) : blockInRange s' x = blockInRange s x := by
  rw [Bool.eq_iff_iff, blockInRange_iff, blockInRange_iff, h.i]

theorem fetch (h : ReadAlike s s') : fetch s' = fetch s := by
  simp only [Machine.fetch, h.pc, h.mem]

/-- Dispatch reads none of the three parts, arm by arm. -/
theorem exec {i : Instr} (h : ReadAlike s s') (hx : exec i s = .next t) (hx' : exec i s' = .next t') :
    ReadAlike t t' := by
  cases i with
  | cls => cases hx; cases hx'; exact h.displayClear
  | ret =>
    cases hx; cases hx'
    rw [h.topStack]
    cases s.topStack with
    | none => exact h.takeFault _ _ rfl
    | some a => exact h.dropStack.setPc rfl
  | call nnn =>
    cases hx; cases hx'
    rw [h.stackFull]
    split
    · exact h.takeFault _ _ rfl
    · exact (h.pushStack h.pc).setPc rfl
  | jp nnn => cases hx; cases hx'; exact h.setPc rfl
  | jpV0 nnn => cases hx; cases hx'; exact h.setPc (by rw [h.reg])
  | seImm x nn => cases hx; cases hx'; exact h.skipIf (by rw [h.reg])
  | sneImm x nn => cases hx; cases hx'; exact h.skipIf (by rw [h.reg])
  | seReg x y => cases hx; cases hx'; exact h.skipIf (by rw [h.reg, h.reg])
  | ldImm x nn => cases hx; cases hx'; exact h.setReg x rfl
  | addImm x nn => cases hx; cases hx'; exact h.setReg x (by rw [h.reg])
  | ldReg x y => cases hx; cases hx'; exact h.setReg x (h.reg y)
  | orReg x y | andReg x y | xorReg x y => cases hx; cases hx'; exact h.setReg x (by rw [h.reg, h.reg])
  | rnd x nn =>
    cases hx; cases hx'
    exact h.countDraw.setReg x (by rw [State.randomByte, State.randomByte, h.rndCount])
  | ldVxDT x => cases hx; cases hx'; exact h.setReg x h.dt
  | ldI nnn => cases hx; cases hx'; exact h.setI rfl
  | addI x => cases hx; cases hx'; exact h.setI (by rw [h.i, h.reg])
  | ldDT x => cases hx; cases hx'; exact h.setDT (h.reg x)
  | ldST x => cases hx; cases hx'; exact h.setST _ _
  | storeBlock x =>
    cases hx; cases hx'
    rw [h.blockInRange]
    split
    · next hr => exact h.storeRegs (blockInRange_iff.1 hr)
    · exact h.takeFault _ _ (by rw [h.i])
  | loadBlock x =>
    cases hx; cases hx'
    rw [h.blockInRange]
    split
    · exact h.loadRegs x
    · exact h.takeFault _ _ (by rw [h.i])
  | sys | addRegNI | aluOtherNI | sneRegNI | drwNI | keyNI | keyWaitNI | glyphNI | bcdNI | fOtherNI =>
    cases hx; cases hx'; exact h.reportNI _

theorem advance (h : ReadAlike s s') : ReadAlike (advance s) (advance s') := by
  cases hs : s.status with
  | faulted r => rwa [advance_faulted hs, advance_faulted (h.status.trans hs)]
  | running =>
    rw [advance_running hs, advance_running (h.status.trans hs), h.pc]
    exact h.setPc rfl

theorem step (h : ReadAlike s s') (hstep : step s = .next t) (hstep' : step s' = .next t') :
    ReadAlike t t' := by
  cases hs : s.status with
  | faulted r =>
    rw [step_faulted hs] at hstep
    rw [step_faulted (h.status.trans hs)] at hstep'
    cases hstep; cases hstep'
    exact h
  | running =>
    have hs' := h.status.trans hs
    cases hf : Machine.fetch s with
    | none =>
      rw [step_fetch_fault hs hf] at hstep
      rw [step_fetch_fault hs' (h.fetch.trans hf)] at hstep'
      cases hstep; cases hstep'
      exact h.takeFault _ _ (by rw [h.pc])
    | some op =>
      obtain ⟨u, hu⟩ := exec_answers (decodeWord op) s
      obtain ⟨u', hu'⟩ := exec_answers (decodeWord op) s'
      rw [step_exec hs hf hu] at hstep
      rw [step_exec hs' (h.fetch.trans hf) hu'] at hstep'
      cases hstep; cases hstep'
      exact (h.exec hu hu').advance.atBoundary

end ReadAlike

/-- Settles O22: each operation of the model keeps the agreement. -/
theorem soundTimerScreenAndEventsAreNotRead : Obligations.SoundTimerScreenAndEventsAreNotRead :=
  fun _ _ _ _ h hstep hstep' => ((readAlike_of_sameBut h).step hstep hstep').sameBut

end Sys2Proof.Machine
end

section
/-! PROOFS. Who writes what: the event trace, the registers and the other parts of the state, a faulted block, and what
reset leaves (10_state.md R19, R31, R32, R34). -/
namespace Sys2Proof.Machine

/-- The trace after a step is the trace after its dispatch, and an event of it carries the fetched word. -/
theorem step_events {s t : State} (h : step s = .next t) : t.events = s.events ∨
    ∃ op, fetch s = some op ∧
      ((isNotImplemented (decodeWord op) = true ∧
          t.events = s.events ++ [.notImplemented s.pc (encode (decodeWord op))]) ∨
        (decodeWord op = .cls ∧ s.params.displayPresent = true ∧
          t.events = s.events ++ [.displayClear s.pc])) := by
  rcases step_cases h with ⟨r, -, rfl⟩ | ⟨-, -, rfl⟩ | ⟨op, u, -, hf, hx, hend⟩
  · exact .inl rfl
  · exact .inl rfl
  · have ht : t.events = u.events := by
      rcases hend with ⟨r, -, rfl⟩ | ⟨-, rfl⟩
      · rfl
      · simp
    rw [ht]
    exact (exec_events hx).imp_right fun hev => ⟨op, hf, hev⟩

/-- Settles O13: the opcode an event carries is the encoding of the decoded word, which is the word fetched. -/
theorem eventsAreAppendOnly : Obligations.EventsAreAppendOnly := by
  intro s t h
  rcases step_events h with hev | ⟨op, hf, ⟨hi, hev⟩ | ⟨hcls, hd, hev⟩⟩
  · exact .inl hev
  · have hop : encode (decodeWord op) = op :=
      encode_decodeWord_of_ne_seReg rfl fun x y he => by rw [he] at hi; cases hi
    rw [hop] at hev
    exact .inr (.inl ⟨op, hf, hi, hev⟩)
  · have hop : 0x00E0#16 = op := encode_decodeWord_of_ne_seReg hcls nofun
    exact .inr (.inr ⟨hop ▸ hf, hd, hev⟩)

/-- Settles O20, by cases on the instruction (`exec_reg`). -/
theorem registerWritersAreListed : Obligations.RegisterWritersAreListed :=
  fun _ _ _ _ h hk => exec_reg h hk

/-- Settles O21: a part that changed is in the table of `execWrites`, and memory as a list changes only by a store. -/
theorem eachPartHasItsWriters : Obligations.EachPartHasItsWriters := by
  intro i s t h
  have hmem (hne : t.mem ≠ s.mem) : ∃ x, i = .storeBlock x := by
    obtain ⟨x, hi, -⟩ := (exec_mem h).resolve_left hne
    exact ⟨x, hi⟩
  exact ⟨fun hne => index_mem_execWrites (mem_execWrites_of_changed h hne),
    fun hne => stack_mem_execWrites (mem_execWrites_of_changed h hne),
    fun hne => dt_mem_execWrites (mem_execWrites_of_changed h hne),
    fun hne => st_mem_execWrites (mem_execWrites_of_changed h hne),
    hmem,
    fun hne => screen_mem_execWrites (mem_execWrites_of_changed h hne),
    fun hne => events_mem_execWrites (mem_execWrites_of_changed h hne),
    fun hne => status_mem_execWrites (mem_execWrites_of_changed h hne),
    fun hne => rndCount_mem_execWrites (mem_execWrites_of_changed h hne),
    exec_own_fields h⟩

theorem applyTicks_faulted {s : State} {r : FaultRecord} (h : s.status = .faulted r) (n : Nat) :
    applyTicks n s = s := by
  unfold applyTicks; rw [h]

theorem loadImage_faulted {s : State} {r : FaultRecord} (h : s.status = .faulted r) (image : List Byte) :
    loadImage image s = .refused .loadOutsideWindow := by
  unfold loadImage; rw [h]; cases s.loading <;> rfl

/-- Settles O11: a dispatch keeps the status or records a new fault, and each agent but reset asks for a running block. -/
theorem faultedIsKeptUntilReset : Obligations.FaultedIsKeptUntilReset :=
  fun _ _ h => ⟨step_faulted h, tick_faulted h, applyTicks_faulted h, loadImage_faulted h,
    fun _ _ hx => exec_status_ne_running hx h, fun _ => rfl⟩

/-- Settles O30: the reset input differs from construction only in the two counters it lets go on. -/
theorem resetLeavesTable : Obligations.ResetLeavesTable := by
  intro s hs
  obtain ⟨p, draws, boundaries, rfl⟩ :
      ∃ p n m, s = { State.resetWith p with rndCount := n, boundary := m } := by
    rcases hs with ⟨p, rfl⟩ | ⟨present, u, rfl⟩
    · exact ⟨p, 0, 0, rfl⟩
    · exact ⟨_, u.rndCount, u.boundary, rfl⟩
  exact ⟨State.resetWith_reg p, rfl, rfl, rfl, rfl, rfl, fun _ => rfl, State.resetWith_pixel p, rfl, rfl⟩

end Sys2Proof.Machine
end

section
/-! PROOFS. Fetch and store meet in one memory (20_memory.md R41, R42, R51): a word is fetched from where it was
placed, or built by Fx55. -/
namespace Sys2Proof

theorem decodeWord_encode_storeBlock (x : RegIdx) : decodeWord (encode (.storeBlock x)) = .storeBlock x := by
  have hmisc : decodeWord (wordXNN 0xF#4 x 0x55#8) = decodeMisc (wordXNN 0xF#4 x 0x55#8) := by
    unfold decodeWord; rw [familyField_wordXNN]; rfl
  have hstore : decodeMisc (wordXNN 0xF#4 x 0x55#8) = .storeBlock (xField (wordXNN 0xF#4 x 0x55#8)) := by
    unfold decodeMisc; rw [nnField_wordXNN]; rfl
  rw [encode, hmisc, hstore, xField_wordXNN]

namespace Machine

variable {s : State}

/-- A fetch in range from two known bytes. -/
theorem fetch_of_bytes {hi lo : Byte} (hpc : s.pc.toNat + 1 < 4096) (hhi : readByte s.mem s.pc.toNat = hi)
    (hlo : readByte s.mem (s.pc.toNat + 1) = lo) : fetch s = some (wordOfBytes hi lo) :=
  fetch_some_iff.2 ⟨hpc, by rw [hhi, hlo]⟩

theorem placeWord_mem (s : State) (op : Word) : (placeWord s op).mem =
    writeByte (writeByte s.mem s.pc.toNat (op.extractLsb' 8 8)) (s.pc.toNat + 1) (op.extractLsb' 0 8) :=
  rfl

theorem fetch_placeWord (hpc : s.pc.toNat + 1 < 4096) (op : Word) : fetch (placeWord s op) = some op := by
  have hhi : readByte (placeWord s op).mem s.pc.toNat = op.extractLsb' 8 8 := by
    rw [placeWord_mem, readByte_writeByte, if_neg (by omega), readByte_writeByte,
      if_pos ⟨rfl, Nat.lt_of_succ_lt hpc⟩]
  have hlo : readByte (placeWord s op).mem (s.pc.toNat + 1) = op.extractLsb' 0 8 := by
    rw [placeWord_mem, readByte_writeByte, if_pos ⟨rfl, hpc⟩]
  rw [fetch_of_bytes (s := placeWord s op) hpc hhi hlo, wordOfBytes_bytes]

/-- Settles O9: the word of two bytes as a number, and a read after a write. -/
theorem fetchIsBigEndian : Obligations.FetchIsBigEndian := by
  refine ⟨fun s hpc => ⟨_, fetch_of_bytes hpc rfl rfl, wordOfBytes_toNat _ _⟩, fun s w hpc hw => ?_⟩
  have hword : s.withFetchWord 16 w = placeWord s (BitVec.ofNat 16 w) :=
    congrArg (fun n => placeWord s (BitVec.ofNat 16 n)) (Nat.mod_eq_of_lt hw)
  rw [hword, fetch_placeWord hpc]

theorem exec_storeBlock_inRange {x : RegIdx} (hr : s.i.toNat + x.val < 4096) :
    exec (.storeBlock x) s = .next (storeRegs s x) :=
  congrArg Host.Outcome.next (if_pos (blockInRange_iff.2 hr))

@[simp] theorem storeRegs_status (x : RegIdx) : (storeRegs s x).status = s.status := by
  rw [storeRegs_eq]; rfl

/-- Each register of the block is read back at its own address (44_family_F.md R104). -/
theorem readByte_storeRegs_blockAddr {x k : RegIdx} (hr : s.i.toNat + x.val < 4096) (hk : k ≤ x) :
    readByte (storeRegs s x).mem (blockAddr s k) = s.reg k := by
  have hkx : k.val ≤ x.val := hk
  have hindex : (⟨(blockAddr s k - s.i.toNat) % 16, Nat.mod_lt _ (by omega)⟩ : RegIdx) = k :=
    Fin.ext (by simp only [blockAddr]; omega)
  rw [readByte_storeRegs s x _ hr, if_pos (by simp only [blockAddr]; omega), hindex]

/-- A step at an Fx55 in range leaves the memory its stores leave. -/
theorem step_storeBlock_mem {x : RegIdx} (hs : s.status = .running)
    (hf : fetch s = some (encode (.storeBlock x))) (hr : s.i.toNat + x.val < 4096) :
    ∃ t, step s = .next t ∧ t.mem = (storeRegs s x).mem := by
  have hx : exec (decodeWord (encode (.storeBlock x))) s = .next (storeRegs s x) := by
    rw [decodeWord_encode_storeBlock]; exact exec_storeBlock_inRange hr
  refine ⟨_, step_exec hs hf hx, ?_⟩
  rw [advance_running (by rw [storeRegs_status, hs]), atBoundary_mem, State.setPc_mem]

/-- Settles O56: the two bytes of the word are Vj and Vk, each at its address of the block. -/
theorem storedWordIsFetched : Obligations.StoredWordIsFetched := by
  intro s x j k hs hf hr hkj hkx
  obtain ⟨t, hstep, hmem⟩ := step_storeBlock_mem hs hf hr
  refine ⟨t, hstep, fun u hu hpc => ?_⟩
  have hkx' : k.val ≤ x.val := hkx
  have hjx : j ≤ x := by show j.val ≤ x.val; omega
  have hnext : u.pc.toNat + 1 = blockAddr s k := by rw [hpc, blockAddr, hkj, Nat.add_assoc]
  have hread {a : Nat} {r : RegIdx} (ha : a = blockAddr s r) (hrx : r ≤ x) : readByte u.mem a = s.reg r := by
    rw [hu, hmem, ha, readByte_storeRegs_blockAddr hr hrx]
  exact fetch_of_bytes (by omega) (hread hpc hjx) (hread hnext hkx)

end Machine
end Sys2Proof
end

section
/-! PROOFS. The encoding (30_encoding.md R53 to R65): decoder and encoder undo each other, and the decoder follows the
opcode table. -/
namespace Sys2Proof

/-! ### The three catch-all instructions are the only ones not always well-formed (R62) -/

@[simp] theorem wellFormed_sys (nnn : Addr12) : (Instr.sys nnn).wellFormed = !isNamedZeroWord nnn := rfl

@[simp] theorem wellFormed_aluOtherNI (x y : RegIdx) (n : Nibble) :
    (Instr.aluOtherNI x y n).wellFormed = !isNamedAluMode n := rfl

@[simp] theorem wellFormed_fOtherNI (x : RegIdx) (nn : Byte) :
    (Instr.fOtherNI x nn).wellFormed = !isNamedFMode nn := rfl

/-! ### The second level of the decoder on an assembled word (R58 to R60) -/

theorem decodeWord_wordNNN_zero (nnn : Addr12) :
    decodeWord (wordNNN 0x0#4 nnn) = decodeZero (wordNNN 0x0#4 nnn) := by
  simp [decodeWord]

theorem decodeWord_wordXYN_alu (x y : RegIdx) (n : Nibble) :
    decodeWord (wordXYN 0x8#4 x y n) = decodeAlu (wordXYN 0x8#4 x y n) := by
  simp [decodeWord]

theorem decodeWord_wordXNN_misc (x : RegIdx) (nn : Byte) :
    decodeWord (wordXNN 0xF#4 x nn) = decodeMisc (wordXNN 0xF#4 x nn) := by
  simp [decodeWord]

theorem wordNNN_ne_of_ne {f g : Nibble} {nnn mmm : Addr12} (h : nnn ≠ mmm) : wordNNN f nnn ≠ wordNNN g mmm :=
  fun e => h (by simpa using congrArg nnnField e)

theorem decodeZero_of_unnamed {nnn : Addr12} (h : isNamedZeroWord nnn = false) :
    decodeZero (wordNNN 0x0#4 nnn) = .sys nnn := by
  obtain ⟨hcls, hret⟩ : nnn ≠ 0x0E0#12 ∧ nnn ≠ 0x0EE#12 := by simpa [isNamedZeroWord] using h
  have hcls' : wordNNN 0x0#4 nnn ≠ 0x00E0#16 := wordNNN_ne_of_ne (g := 0x0#4) hcls
  have hret' : wordNNN 0x0#4 nnn ≠ 0x00EE#16 := wordNNN_ne_of_ne (g := 0x0#4) hret
  rw [decodeZero, if_neg hcls', if_neg hret', nnnField_wordNNN]

theorem decodeAlu_of_unnamed (x y : RegIdx) {n : Nibble} (h : isNamedAluMode n = false) :
    decodeAlu (wordXYN 0x8#4 x y n) = .aluOtherNI x y n := by
  unfold decodeAlu
  rw [nField_wordXYN, xField_wordXYN, yField_wordXYN]
  split
  case h_6 => rfl
  all_goals exact absurd h (by decide)

theorem decodeMisc_of_unnamed (x : RegIdx) {nn : Byte} (h : isNamedFMode nn = false) :
    decodeMisc (wordXNN 0xF#4 x nn) = .fOtherNI x nn := by
  unfold decodeMisc
  rw [nnField_wordXNN, xField_wordXNN]
  split
  case h_10 => rfl
  all_goals exact absurd h (by decide)

/-- Well-formedness keeps a catch-all instruction from the word of a named one. -/
theorem decodeWord_encode {i : Instr} (h : i.wellFormed = true) : decodeWord (encode i) = i := by
  cases i
  case cls | ret => rfl
  case sys nnn => exact (decodeWord_wordNNN_zero nnn).trans (decodeZero_of_unnamed (by simpa using h))
  case aluOtherNI x y n =>
    exact (decodeWord_wordXYN_alu x y n).trans (decodeAlu_of_unnamed x y (by simpa using h))
  case fOtherNI x nn =>
    exact (decodeWord_wordXNN_misc x nn).trans (decodeMisc_of_unnamed x (by simpa using h))
  case ldReg | orReg | andReg | xorReg | addRegNI => simp [encode, decodeWord_wordXYN_alu, decodeAlu]
  case ldVxDT | keyWaitNI | ldDT | ldST | addI | glyphNI | bcdNI | storeBlock | loadBlock =>
    simp [encode, decodeWord_wordXNN_misc, decodeMisc]
  all_goals simp [encode, decodeWord]

/-- Settles O1, by cases on the instruction (`decodeWord_encode`). -/
theorem decodeOfEncodeIsIdentity : Obligations.DecodeOfEncodeIsIdentity := fun _ h => decodeWord_encode h

/-- Settles O7: the two bytes of a word give it back, and it decodes to the instruction. -/
theorem bytesDecodeInOrder : Obligations.BytesDecodeInOrder := by
  refine ⟨fun i rest h => ?_, fun bs h => ?_⟩
  · show Except.ok (decodeWord (wordOfBytes _ _), rest) = _
    rw [wordOfBytes_bytes, decodeWord_encode h]
  · match bs, h with
    | [], _ => rfl
    | [_], _ => rfl

/-! ### The decoder answers instructions of the table (R61, R62) -/

theorem decodeZero_wellFormed {w : Word} (hf : familyField w = 0x0#4) : (decodeZero w).wellFormed = true := by
  have hw : wordNNN 0x0#4 (nnnField w) = w := wordNNN_of_family hf
  unfold decodeZero
  split
  · rfl
  · next hcls =>
    split
    · rfl
    · next hret =>
      have hcls' : nnnField w ≠ 0x0E0#12 := fun e => hcls (hw.symm.trans (congrArg (wordNNN 0x0#4) e))
      have hret' : nnnField w ≠ 0x0EE#12 := fun e => hret (hw.symm.trans (congrArg (wordNNN 0x0#4) e))
      simp [isNamedZeroWord, hcls', hret']

theorem decodeAlu_wellFormed (w : Word) : (decodeAlu w).wellFormed = true := by
  unfold decodeAlu
  split
  case h_6 => simp_all [isNamedAluMode]
  all_goals rfl

theorem decodeMisc_wellFormed (w : Word) : (decodeMisc w).wellFormed = true := by
  unfold decodeMisc
  split
  case h_10 => simp_all [isNamedFMode]
  all_goals rfl

theorem decodeWord_wellFormed (w : Word) : (decodeWord w).wellFormed = true := by
  unfold decodeWord
  split
  case h_1 hf => exact decodeZero_wellFormed hf
  case h_9 => exact decodeAlu_wellFormed w
  case h_16 => exact decodeMisc_wellFormed w
  all_goals rfl

/-- Settles O3, by the arms of the decoder (`decodeWord_wellFormed`). -/
theorem decodeGivesWellFormed : Obligations.DecodeGivesWellFormed := decodeWord_wellFormed

/-! ### Fields and masks (R55) -/

section masks
variable (w : Word) {m : Word}

theorem familyField_and_ones (hm : familyField m = BitVec.allOnes 4) : familyField (w &&& m) = familyField w := by
  rw [familyField, BitVec.extractLsb'_and, ← familyField, ← familyField, hm, BitVec.and_allOnes]

theorem xField_and_ones (hm : m.extractLsb' 8 4 = BitVec.allOnes 4) : xField (w &&& m) = xField w := by
  rw [xField, BitVec.extractLsb'_and, hm, BitVec.and_allOnes, ← xField]

theorem yField_and_ones (hm : m.extractLsb' 4 4 = BitVec.allOnes 4) : yField (w &&& m) = yField w := by
  rw [yField, BitVec.extractLsb'_and, hm, BitVec.and_allOnes, ← yField]

theorem nField_and_zero (hm : nField m = 0x0#4) : nField (w &&& m) = 0x0#4 := by
  rw [nField, BitVec.extractLsb'_and, ← nField, ← nField, hm, BitVec.and_zero]

theorem wordXYN_of_n_cleared :
    wordXYN (familyField w) (xField w) (yField w) 0x0#4 = w &&& 0xFFF0#16 := by
  have h := wordXYN_fields (w &&& 0xFFF0#16)
  rwa [familyField_and_ones w (by decide), xField_and_ones w (by decide), yField_and_ones w (by decide),
    nField_and_zero w (by decide)] at h

end masks

/-- Settles O2: family 5 is assembled with n = 0, every other family from all its fields (`encode_decodeWord`). -/
theorem encodeOfDecodeIsIdentity : Obligations.EncodeOfDecodeIsIdentity := by
  intro w
  split
  · next h5 => rw [decodeWord_familyFive h5, encode, ← h5, wordXYN_of_n_cleared]
  · next h5 => exact encode_decodeWord h5

theorem slice_eq_mask_shift {n start len : Nat} {mask : BitVec n} (w : BitVec n) (h : start + len ≤ n)
    (hm : mask = (BitVec.allOnes len).setWidth n <<< start) :
    (w.extractLsb' start len).setWidth n = (w &&& mask) >>> start := by
  subst hm
  ext k hk
  by_cases hkl : k < len
  · have hkn : start + k < n := by omega
    simp [hkl, hkn]
  · simp [hkl]

theorem reg_eq_mask_shift {start : Nat} {mask : Word} (w : Word) (h : start + 4 ≤ 16)
    (hm : mask = (BitVec.allOnes 4).setWidth 16 <<< start) :
    BitVec.ofNat 16 (regOfBits (w.extractLsb' start 4)).val = (w &&& mask) >>> start :=
  (BitVec.ofNat_toNat 16 (w.extractLsb' start 4)).trans (slice_eq_mask_shift w h hm)

/-- Settles O5: a slice is the mask of its bits, shifted down (`slice_eq_mask_shift`). -/
theorem fieldsAreMasksAndShifts : Obligations.FieldsAreMasksAndShifts := by
  refine ⟨fun op => ⟨?_, ?_, ?_, ?_, ?_, ?_⟩, by decide⟩
  · exact slice_eq_mask_shift op (by omega) (by decide)
  · exact (slice_eq_mask_shift op (by omega) (by decide)).trans (BitVec.ushiftRight_zero _)
  · exact (slice_eq_mask_shift op (by omega) (by decide)).trans (BitVec.ushiftRight_zero _)
  · exact (slice_eq_mask_shift op (by omega) (by decide)).trans (BitVec.ushiftRight_zero _)
  · exact reg_eq_mask_shift op (by omega) (by decide)
  · exact reg_eq_mask_shift op (by omega) (by decide)

/-- Settles O6, by running the decoder on each word. -/
theorem sampleWordsDecode : Obligations.SampleWordsDecode := by
  unfold Obligations.SampleWordsDecode; decide

/-! ### The rows of the opcode table (R65) -/

section rows
variable {w : Word} {q r : OpRow}

theorem OpRow.accepts_iff : r.accepts w = true ↔ w &&& r.maskBits = r.matchBits := beq_iff_eq

/-- Two rows that accept one word ask the same of the bits both look at. -/
theorem OpRow.agree_of_accepts (hq : q.accepts w = true) (hr : r.accepts w = true) :
    q.matchBits &&& r.maskBits = r.matchBits &&& q.maskBits := by
  rw [← OpRow.accepts_iff.1 hq, ← OpRow.accepts_iff.1 hr, BitVec.and_assoc, BitVec.and_assoc,
    BitVec.and_comm q.maskBits]

theorem rows_eq_of_agree : ∀ q ∈ opcodeTable, ∀ r ∈ opcodeTable,
    q.matchBits &&& r.maskBits = r.matchBits &&& q.maskBits → q.priority = r.priority → q = r := by decide

theorem catchAll_rows : ∀ r ∈ opcodeTable, (r.priority = 1 ↔ r.rule = 77 ∨ r.rule = 90 ∨ r.rule = 106) ∧
    r.priority ≤ 1 ∧ (r.priority = 1 → r.maskBits = 0xF000#16) := by decide

/-! A named row that agrees with a catch-all row on the family asks for a named mode. -/

theorem named_row_of_family_zero : ∀ q ∈ opcodeTable, q.priority = 0 →
    q.matchBits &&& 0xF000#16 = 0x0000#16 &&& q.maskBits →
    q.maskBits = 0xFFFF#16 ∧ isNamedZeroWord (nnnField q.matchBits) = true := by decide

theorem named_row_of_family_alu : ∀ q ∈ opcodeTable, q.priority = 0 →
    q.matchBits &&& 0xF000#16 = 0x8000#16 &&& q.maskBits →
    q.maskBits = 0xF00F#16 ∧ isNamedAluMode (nField q.matchBits) = true := by decide

theorem named_row_of_family_misc : ∀ q ∈ opcodeTable, q.priority = 0 →
    q.matchBits &&& 0xF000#16 = 0xF000#16 &&& q.maskBits →
    q.maskBits = 0xF0FF#16 ∧ isNamedFMode (nnField q.matchBits) = true := by decide

end rows

section named_rows
variable {q : OpRow} (hq : q ∈ opcodeTable) (h0 : q.priority = 0)
include hq h0

theorem named_zero_of_accepts {nnn : Addr12} (ha : q.accepts (wordNNN 0x0#4 nnn) = true) :
    isNamedZeroWord nnn = true := by
  have hcatch : OpRow.accepts ⟨77, 0x0000#16, 0xF000#16, 1⟩ (wordNNN 0x0#4 nnn) = true :=
    OpRow.accepts_iff.2 (wordNNN_family_mask _ _)
  obtain ⟨hm, hn⟩ := named_row_of_family_zero q hq h0 (OpRow.agree_of_accepts ha hcatch)
  have hw : wordNNN 0x0#4 nnn &&& 0xFFFF#16 = q.matchBits := hm ▸ OpRow.accepts_iff.1 ha
  rwa [← hw, show wordNNN 0x0#4 nnn &&& 0xFFFF#16 = wordNNN 0x0#4 nnn from BitVec.and_allOnes,
    nnnField_wordNNN] at hn

theorem named_alu_of_accepts {x y : RegIdx} {n : Nibble} (ha : q.accepts (wordXYN 0x8#4 x y n) = true) :
    isNamedAluMode n = true := by
  have hcatch : OpRow.accepts ⟨90, 0x8000#16, 0xF000#16, 1⟩ (wordXYN 0x8#4 x y n) = true :=
    OpRow.accepts_iff.2 (wordXYN_family_mask _ _ _ _)
  obtain ⟨hm, hn⟩ := named_row_of_family_alu q hq h0 (OpRow.agree_of_accepts ha hcatch)
  have hw : wordXYN 0x8#4 x y n &&& 0xF00F#16 = q.matchBits := hm ▸ OpRow.accepts_iff.1 ha
  rwa [← hw, wordXYN_mode_mask, nField_wordXYN] at hn

theorem named_misc_of_accepts {x : RegIdx} {nn : Byte} (ha : q.accepts (wordXNN 0xF#4 x nn) = true) :
    isNamedFMode nn = true := by
  have hcatch : OpRow.accepts ⟨106, 0xF000#16, 0xF000#16, 1⟩ (wordXNN 0xF#4 x nn) = true :=
    OpRow.accepts_iff.2 (wordXNN_family_mask _ _ _)
  obtain ⟨hm, hn⟩ := named_row_of_family_misc q hq h0 (OpRow.agree_of_accepts ha hcatch)
  have hw : wordXNN 0xF#4 x nn &&& 0xF0FF#16 = q.matchBits := hm ▸ OpRow.accepts_iff.1 ha
  rwa [← hw, wordXNN_mode_mask, nnField_wordXNN] at hn

/-- No named row accepts a well-formed instruction of a catch-all row (R62). -/
theorem rule_not_catchAll_of_accepts {i : Instr} (hi : i.wellFormed = true) (ha : q.accepts (encode i) = true) :
    ¬ (i.rule = 77 ∨ i.rule = 90 ∨ i.rule = 106) := by
  cases i
  case sys nnn => simp [named_zero_of_accepts hq h0 ha] at hi
  case aluOtherNI x y n => simp [named_alu_of_accepts hq h0 ha] at hi
  case fOtherNI x nn => simp [named_misc_of_accepts hq h0 ha] at hi
  all_goals simp [Instr.rule]

end named_rows

/-- The law of every instruction, by its own row. -/
theorem encode_accepted : ∀ i : Instr, Laws.EncodeRow.Statement i
  | .cls => Laws.EncodeRow.cls
  | .ret => Laws.EncodeRow.ret
  | .sys nnn => Laws.EncodeRow.sys nnn
  | .jp nnn => Laws.EncodeRow.jp nnn
  | .call nnn => Laws.EncodeRow.call nnn
  | .seImm x nn => Laws.EncodeRow.seImm x nn
  | .sneImm x nn => Laws.EncodeRow.sneImm x nn
  | .seReg x y => Laws.EncodeRow.seReg x y
  | .ldImm x nn => Laws.EncodeRow.ldImm x nn
  | .addImm x nn => Laws.EncodeRow.addImm x nn
  | .ldReg x y => Laws.EncodeRow.ldReg x y
  | .orReg x y => Laws.EncodeRow.orReg x y
  | .andReg x y => Laws.EncodeRow.andReg x y
  | .xorReg x y => Laws.EncodeRow.xorReg x y
  | .addRegNI x y => Laws.EncodeRow.addRegNI x y
  | .aluOtherNI x y n => Laws.EncodeRow.aluOtherNI x y n
  | .sneRegNI x y n => Laws.EncodeRow.sneRegNI x y n
  | .ldI nnn => Laws.EncodeRow.ldI nnn
  | .jpV0 nnn => Laws.EncodeRow.jpV0 nnn
  | .rnd x nn => Laws.EncodeRow.rnd x nn
  | .drwNI x y n => Laws.EncodeRow.drwNI x y n
  | .keyNI x nn => Laws.EncodeRow.keyNI x nn
  | .ldVxDT x => Laws.EncodeRow.ldVxDT x
  | .keyWaitNI x => Laws.EncodeRow.keyWaitNI x
  | .ldDT x => Laws.EncodeRow.ldDT x
  | .ldST x => Laws.EncodeRow.ldST x
  | .addI x => Laws.EncodeRow.addI x
  | .glyphNI x => Laws.EncodeRow.glyphNI x
  | .bcdNI x => Laws.EncodeRow.bcdNI x
  | .storeBlock x => Laws.EncodeRow.storeBlock x
  | .loadBlock x => Laws.EncodeRow.loadBlock x
  | .fOtherNI x nn => Laws.EncodeRow.fOtherNI x nn

/-- The row an instruction's rule gives has the lowest priority of the rows that accept its encoding. -/
theorem priority_le_of_accepts_encode {i : Instr} {q r : OpRow} (hi : i.wellFormed = true) (hr : r ∈ opcodeTable)
    (hrule : r.rule = i.rule) (hq : q ∈ opcodeTable) (ha : q.accepts (encode i) = true) :
    r.priority ≤ q.priority := by
  obtain ⟨hcatch, hle, -⟩ := catchAll_rows r hr
  by_cases h0 : q.priority = 0
  · have hnamed := rule_not_catchAll_of_accepts hq h0 hi ha
    rw [← hrule, ← hcatch] at hnamed
    omega
  · omega

/-- The one row of family 5 looks at the family alone, so the n that the encoder loses plays no part. -/
theorem familyFive_accepted {w : Word} (h5 : familyField w = 0x5#4) :
    OpRow.accepts ⟨82, 0x5000#16, 0xF000#16, 0⟩ w = true := by
  rw [OpRow.accepts_iff, ← wordNNN_of_family h5, wordNNN_family_mask]
  rfl

theorem exists_row_of_lowest_priority (w : Word) : ∃ r ∈ opcodeTable, r.accepts w = true ∧
    r.rule = (decodeWord w).rule ∧ ∀ q ∈ opcodeTable, q.accepts w = true → r.priority ≤ q.priority := by
  by_cases h5 : familyField w = 0x5#4
  · exact ⟨⟨82, 0x5000#16, 0xF000#16, 0⟩, by decide, familyFive_accepted h5,
      (congrArg Instr.rule (decodeWord_familyFive h5)).symm, fun q _ _ => Nat.zero_le q.priority⟩
  · obtain ⟨r, hr, hrule, ha⟩ := encode_accepted (decodeWord w)
    have hw : encode (decodeWord w) = w := encode_decodeWord h5
    exact ⟨r, hr, hw ▸ ha, hrule, fun q hq hqa =>
      priority_le_of_accepts_encode (decodeWord_wellFormed w) hr hrule hq (hw.symm ▸ hqa)⟩

/-- Settles O4: the decoded instruction's own row accepts the word, and no named row takes a catch-all's word. -/
theorem decodeFollowsOpcodeTable : Obligations.DecodeFollowsOpcodeTable :=
  ⟨exists_row_of_lowest_priority,
    fun _ q hq r hr haq har => rows_eq_of_agree q hq r hr (OpRow.agree_of_accepts haq har),
    catchAll_rows, by decide⟩

end Sys2Proof
end

section
/-! PROOFS. The dispatcher's general rules (40_dispatcher.md R69, R70, R72): which instructions may write `pc`, and what
the not-implemented condition does in dispatch and in a whole step. -/
namespace Sys2Proof.Machine

variable {i : Instr} {s : State}

theorem pc_mem_execWrites (h : .pc ∈ execWrites i) : isControlTransfer i = true := by
  cases i with
  | ret | jp | call | seImm | sneImm | seReg | jpV0 => rfl
  | _ => simp [execWrites] at h

/-- Settles O19: `pc` is in the table of `execWrites` for the control transfers only. -/
theorem onlyControlTransfersWritePc : Obligations.OnlyControlTransfersWritePc := by
  intro i s t h hi
  have hpc : .pc ∉ execWrites i := fun hmem => by
    rw [pc_mem_execWrites hmem] at hi
    cases hi
  exact exec_frame h .pc hpc

/-- Settles O33: dispatch is the report of the opcode (`exec_of_isNotImplemented`). -/
theorem notImplementedReportsOnly : Obligations.NotImplementedReportsOnly :=
  fun _ s hi => ⟨_, exec_of_isNotImplemented hi s, rfl, sameBut_reportNI s _⟩

/-- The one family whose encoding loses a field is implemented, so the opcode reported is the word fetched. -/
theorem encode_decodeWord_of_isNotImplemented {op : Word} (hi : isNotImplemented (decodeWord op) = true) :
    encode (decodeWord op) = op :=
  encode_decodeWord_of_ne_seReg rfl fun x y he => by rw [he] at hi; cases hi

/-- The whole step at a not-implemented word: the report, the advance, the boundary. -/
theorem step_of_isNotImplemented {op : Word} (hs : s.status = .running) (hf : fetch s = some op)
    (hi : isNotImplemented (decodeWord op) = true) :
    step s = .next (atBoundary ((s.reportNI op).setPc (twoOn s.pc))) := by
  have hx : exec (decodeWord op) s = .next (s.reportNI op) := by
    rw [exec_of_isNotImplemented hi, encode_decodeWord_of_isNotImplemented hi]
  rw [step_exec hs hf hx, advance_running (s := s.reportNI op) hs, State.reportNI_pc]

/-- The advance from an address that was fetched from does not wrap. -/
theorem twoOn_toNat_of_fetch {op : Word} (hf : fetch s = some op) : (twoOn s.pc).toNat = s.pc.toNat + 2 := by
  obtain ⟨hrange, -⟩ := fetch_some_iff.1 hf
  rw [twoOn_toNat]
  omega

/-- Settles O34: the frame is that of the report, the advance and the boundary in turn. -/
theorem notImplementedRunsOn : Obligations.NotImplementedRunsOn := by
  intro s op hs hf hi
  have hframe : SameBut [.pc, .events, .dt, .st, .boundary, .loading] s
      (atBoundary ((s.reportNI op).setPc (twoOn s.pc))) :=
    ((sameBut_reportNI s op).mono (by simp)).trans <|
      ((sameBut_setPc _ _).mono (by simp)).trans ((sameBut_atBoundary _).mono (by simp))
  refine ⟨_, step_of_isNotImplemented hs hf hi, ?_, ?_, ?_, hframe⟩
  · rw [atBoundary_status, State.setPc_status, State.reportNI_status, hs]
  · rw [atBoundary_pc, State.setPc_pc, twoOn_toNat_of_fetch hf]
  · rw [atBoundary_events, State.setPc_events, State.reportNI_events]

end Sys2Proof.Machine
end

section
/-! PROOFS. Families 0x0 to 0x5 (41_family_0_to_5.md): display clear, return, jump, call and the skips; and a CALL taken
together with the RET that answers it. -/
namespace Sys2Proof.Machine

variable {s u : State}

/-! ### A step at an instruction that does not fault -/

/-- The step at the word of an instruction whose dispatch runs on: the dispatch, the advance, the boundary. -/
theorem step_encode_of_running {i : Instr} (hi : i.wellFormed = true) (hs : s.status = .running)
    (hf : fetch s = some (encode i)) (hx : exec i s = .next u) (hu : u.status = .running) :
    step s = .next (atBoundary (u.setPc (twoOn u.pc))) := by
  rw [← decodeWord_encode hi] at hx
  rw [step_exec hs hf hx, advance_running hu]

theorem status_after_advance (hu : u.status = .running) :
    (atBoundary (u.setPc (twoOn u.pc))).status = .running := by
  rw [atBoundary_status, State.setPc_status, hu]

/-- The advance from a 12-bit target does not wrap. -/
theorem twoOn_zext16_toNat (nnn : Addr12) : (twoOn (zext16 nnn)).toNat = nnn.toNat + 2 := by
  have := nnn.isLt
  rw [twoOn_toNat, zext16_toNat]
  omega

/-! ### Return and call (R76, R79) -/

theorem exec_ret_of_top {rest : List Word} {a : Word} (h : s.stack = rest ++ [a]) :
    exec .ret s = .next (s.dropStack.setPc a) := by
  obtain ⟨htop, -⟩ := topStack_append s rest a h
  rw [exec, execRet, htop]

theorem exec_ret_of_empty (h : s.stack = []) :
    exec .ret s = .next (s.takeFault .stackUnderflow (some 0x00EE#16) none) := by
  have htop : s.topStack = none := (topStack_none_iff s).2 h
  rw [exec, execRet, htop]
  rfl

theorem exec_call_of_room (nnn : Addr12) (h : s.params.stackDepth ≠ some s.stack.length) :
    exec (.call nnn) s = .next ((s.pushStack s.pc).setPc (zext16 nnn)) := by
  have hfull : ¬ s.stackFull = true := fun hf => h ((stackFull_iff s).1 hf)
  rw [exec, execCall, if_neg hfull]

theorem exec_call_of_full (nnn : Addr12) (h : s.params.stackDepth = some s.stack.length) :
    exec (.call nnn) s = .next (s.takeFault .stackOverflow (some (encode (.call nnn))) none) := by
  have hfull : s.stackFull = true := (stackFull_iff s).2 h
  rw [exec, execCall, if_pos hfull]

theorem sameBut_setPc_of_stack {t : State} (h : SameBut [.stack] s t) (a : Word) :
    SameBut [.pc, .stack] s (t.setPc a) :=
  (h.mono (by simp)).trans ((sameBut_setPc t a).mono (by simp))

/-- Settles O54: CALL leaves its own address on top of the stack, RET takes it from there, and each cycle then adds two. -/
theorem returnResumesAfterCall : Obligations.ReturnResumesAfterCall := by
  intro s nnn hs hf hroom
  refine ⟨_, step_encode_of_running rfl hs hf (exec_call_of_room nnn hroom) hs, status_after_advance hs, ?_, ?_⟩
  · rw [atBoundary_pc, State.setPc_pc, State.setPc_pc, twoOn_zext16_toNat]
  · intro u hu hstack hret
    have htop : u.stack = s.stack ++ [s.pc] := by
      rw [hstack, atBoundary_stack, State.setPc_stack, State.setPc_stack, State.pushStack_stack]
    obtain ⟨-, hdrop⟩ := topStack_append u _ _ htop
    refine ⟨_, step_encode_of_running (i := .ret) rfl hu hret (exec_ret_of_top htop) hu, status_after_advance hu, ?_, ?_⟩
    · rw [atBoundary_stack, State.setPc_stack, State.setPc_stack, hdrop]
    · rw [atBoundary_pc, State.setPc_pc, State.setPc_pc, twoOn_toNat_of_fetch hf]

/-- Settles O36: the top entry is there or the stack is empty. -/
theorem returnPopsOrUnderflows : Obligations.ReturnPopsOrUnderflows := by
  constructor
  · intro s rest a h
    obtain ⟨-, hdrop⟩ := topStack_append s rest a h
    exact ⟨_, exec_ret_of_top h, rfl, hdrop, sameBut_setPc_of_stack (sameBut_dropStack s) a⟩
  · intro s h
    exact ⟨_, exec_ret_of_empty h, rfl, sameBut_takeFault s _ _ _⟩

/-- Settles O38: the stack has room or is exactly full. -/
theorem callPushesOrOverflows : Obligations.CallPushesOrOverflows := by
  intro nnn s
  constructor
  · intro hroom
    exact ⟨_, exec_call_of_room nnn hroom, rfl, zext16_toNat nnn, sameBut_setPc_of_stack (sameBut_pushStack s _) _⟩
  · intro hfull
    exact ⟨_, _, exec_call_of_full nnn hfull, rfl, wordNNN_toNat 0x2#4 nnn, sameBut_takeFault s _ _ _⟩

/-! ### Jump (R78) -/

/-- Settles O37: dispatch writes the target, and the advance adds two to it. -/
theorem jumpEffect : Obligations.JumpEffect := by
  intro nnn s
  refine ⟨⟨_, rfl, zext16_toNat nnn, sameBut_setPc s _⟩, fun hs hf => ?_⟩
  have hx : exec (.jp nnn) s = .next (s.setPc (zext16 nnn)) := rfl
  have hpc : SameBut [.pc, .dt, .st, .boundary, .loading] s
      ((s.setPc (zext16 nnn)).setPc (twoOn (zext16 nnn))) :=
    ((sameBut_setPc s _).trans (sameBut_setPc _ _)).mono (by simp)
  refine ⟨_, step_encode_of_running rfl hs hf hx hs, status_after_advance hs, ?_,
    hpc.trans ((sameBut_atBoundary _).mono (by simp))⟩
  rw [atBoundary_pc, State.setPc_pc, State.setPc_pc, twoOn_zext16_toNat]

/-! ### Display clear (R75) -/

/-- Settles O35: the display is attached or it is not. -/
theorem clearScreenEffect : Obligations.ClearScreenEffect := by
  intro s
  refine ⟨s.displayClear, rfl, fun hd => ⟨screenDark_of_cleared ?_, ?_⟩, fun hd => ⟨?_, ?_⟩, sameBut_displayClear s⟩
  · rw [State.displayClear_screen, if_pos hd]
  · rw [State.displayClear_events, if_pos hd]
  · rw [State.displayClear_screen, hd, if_neg Bool.false_ne_true]
  · rw [State.displayClear_events, hd, if_neg Bool.false_ne_true]

/-! ### The skips (R80 to R82) -/

theorem skipIf_pc_toNat (c : Bool) (s : State) :
    (skipIf c s).pc.toNat = if c then (s.pc.toNat + 2) % 65536 else s.pc.toNat := by
  cases c with
  | false => rfl
  | true => exact twoOn_toNat s.pc

/-- Settles O39: the skip is taken where the test of Vx against nn holds. -/
theorem skipIfEqualImmediate : Obligations.SkipIfEqualImmediate := by
  intro x nn s
  refine ⟨_, rfl, ?_, sameBut_skipIf _ s⟩
  simp only [skipIf_pc_toNat, beq_iff_eq]

/-- Settles O40: the skip is taken where the test of Vx against nn fails. -/
theorem skipIfNotEqualImmediate : Obligations.SkipIfNotEqualImmediate := by
  intro x nn s
  refine ⟨_, rfl, ?_, sameBut_skipIf _ s⟩
  simp only [skipIf_pc_toNat, bne_iff_ne, ite_not]

/-- Settles O41: the decoder reads no n in family 5. -/
theorem skipIfRegistersEqual : Obligations.SkipIfRegistersEqual := by
  constructor
  · intro x y s
    refine ⟨_, rfl, ?_, sameBut_skipIf _ s⟩
    simp only [skipIf_pc_toNat, beq_iff_eq]
  · intro x y n
    rw [decodeWord_familyFive (familyField_wordXYN 0x5#4 x y n), xField_wordXYN, yField_wordXYN]

end Sys2Proof.Machine
end

section
/-! PROOFS. Families 0x6 to 0x9 (42_family_6_to_9.md): the immediate load and add, and the register-register
operations. Each is one register write, and none has a flag. -/
namespace Sys2Proof.Machine

/-- The frame of one register write: every other register (10_state.md R18), and every other part. -/
theorem setReg_frame (s : State) (x : RegIdx) (b : Byte) :
    (∀ k, k ≠ x → (s.setReg x b).reg k = s.reg k) ∧ SameBut [.regs] s (s.setReg x b) :=
  ⟨fun k hk => (State.setReg_reg s x k b).trans (if_neg hk), sameBut_setReg s x b⟩

/-! ### Immediates (R83, R84) -/

/-- Settles O42: dispatch is the write of nn to Vx. -/
theorem loadImmediateEffect : Obligations.LoadImmediateEffect := by
  intro x nn s
  exact ⟨s.setReg x nn, rfl, fun k => State.setReg_reg s x k nn, sameBut_setReg s x nn⟩

/-- Settles O43: dispatch is the write of the wrapped sum to Vx. -/
theorem addImmediateEffect : Obligations.AddImmediateEffect := by
  intro x nn s
  refine ⟨s.setReg x (addByte (s.reg x) nn), rfl, ?_, setReg_frame s x _⟩
  rw [State.setReg_reg_self, addByte_toNat]

/-! ### Register-register operations (R85 to R88) -/

/-- Settles O44: dispatch is the write to Vx of Vy, or of the bitwise operation on Vx and Vy. -/
theorem registerOperationEffects : Obligations.RegisterOperationEffects := by
  intro x y s
  refine ⟨⟨s.setReg x (s.reg y), rfl, State.setReg_reg_self s x _, setReg_frame s x _⟩,
    ⟨s.setReg x (s.reg x ||| s.reg y), rfl, fun b => ?or, setReg_frame s x _⟩,
    ⟨s.setReg x (s.reg x &&& s.reg y), rfl, fun b => ?and, setReg_frame s x _⟩,
    ⟨s.setReg x (s.reg x ^^^ s.reg y), rfl, fun b => ?xor, fun hxy => ?xorSelf, setReg_frame s x _⟩⟩
  case or => rw [State.setReg_reg_self, BitVec.getLsbD_or]
  case and => rw [State.setReg_reg_self, BitVec.getLsbD_and]
  case xor => rw [State.setReg_reg_self, BitVec.getLsbD_xor]
  case xorSelf => rw [State.setReg_reg_self, hxy, BitVec.xor_self]

end Sys2Proof.Machine
end

section
/-! PROOFS. Families 0xA to 0xE (43_family_A_to_E.md): the load of the index register, the indexed jump and the random
byte. -/
namespace Sys2Proof.Machine

/-- Settles O45: dispatch is the write of the zero-extended nnn to I. -/
theorem loadIndexEffect : Obligations.LoadIndexEffect := by
  intro nnn s
  exact ⟨s.setI (zext16 nnn), rfl, zext16_toNat nnn, sameBut_setI s _⟩

/-- Settles O46: dispatch is the write of the target to pc, and the sum of 12 and 8 bits fits its 16 bits. -/
theorem indexedJumpEffect : Obligations.IndexedJumpEffect := by
  intro nnn s
  exact ⟨s.setPc (indexedTarget nnn (s.reg 0)), rfl, indexedTarget_toNat nnn _, sameBut_setPc s _⟩

/-- Settles O47: dispatch counts the draw, whatever nn is, and then is one register write. -/
theorem randomByteEffect : Obligations.RandomByteEffect := by
  intro x nn s
  have hx : exec (.rnd x nn) s = .next (s.countDraw.setReg x (s.randomByte &&& nn)) := rfl
  obtain ⟨hothers, -⟩ := setReg_frame s.countDraw x (s.randomByte &&& nn)
  refine ⟨_, hx, ?_, ?_, fun k hk => ?_, exec_frame hx⟩
  · rw [State.setReg_reg_self, State.randomByte]
  · rw [State.setReg_rndCount, State.countDraw_rndCount]
  · rw [hothers k hk, State.countDraw_reg]

end Sys2Proof.Machine
end

section
/-! PROOFS. Family 0xF (44_family_F.md): the timers, the index add, the block store and the block load; and a block
stored and loaded back. -/
namespace Sys2Proof.Machine

variable {s : State} {x k : RegIdx}

/-! ### Timers and index add (R97, R99 to R101) -/

/-- Settles O48: dispatch is the write of DT to Vx. -/
theorem readDelayTimerEffect : Obligations.ReadDelayTimerEffect := by
  intro x s
  exact ⟨s.setReg x s.dt, rfl, State.setReg_reg_self s x _, setReg_frame s x _⟩

/-- Settles O49: dispatch is the write of Vx to DT. -/
theorem setDelayTimerEffect : Obligations.SetDelayTimerEffect := by
  intro x s
  exact ⟨s.setDT (s.reg x), rfl, State.setDT_dt s _, sameBut_setDT s _⟩

/-- Settles O50: dispatch is the write of Vx to ST. -/
theorem setSoundTimerEffect : Obligations.SetSoundTimerEffect := by
  intro x s
  exact ⟨s.setST (s.reg x), rfl, State.setST_st s _, sameBut_setST s _⟩

/-- Settles O51: dispatch is the write of the sum, wrapped at 16 bits, to I. -/
theorem addIndexEffect : Obligations.AddIndexEffect := by
  intro x s
  exact ⟨s.setI (addIndex s.i (s.reg x)), rfl, addIndex_toNat s.i _, sameBut_setI s _⟩

/-! ### The range check of the block transfers (R104, R105) -/

theorem not_blockInRange (hr : 4096 ≤ s.i.toNat + x.val) : ¬ blockInRange s x = true :=
  fun h => Nat.not_lt.2 hr (blockInRange_iff.1 h)

theorem exec_storeBlock_outOfRange (hr : 4096 ≤ s.i.toNat + x.val) : exec (.storeBlock x) s =
    .next (s.takeFault .dataRange (some (encode (.storeBlock x))) (some (firstOutOfRange s.i))) :=
  congrArg Host.Outcome.next (if_neg (not_blockInRange hr))

theorem exec_loadBlock_inRange (hr : s.i.toNat + x.val < 4096) :
    exec (.loadBlock x) s = .next (loadRegs s x) :=
  congrArg Host.Outcome.next (if_pos (blockInRange_iff.2 hr))

theorem exec_loadBlock_outOfRange (hr : 4096 ≤ s.i.toNat + x.val) : exec (.loadBlock x) s =
    .next (s.takeFault .dataRange (some (encode (.loadBlock x))) (some (firstOutOfRange s.i))) :=
  congrArg Host.Outcome.next (if_neg (not_blockInRange hr))

/-- An opcode of family F as a number, in the form the fault records are stated in. -/
theorem wordXNN_familyF_toNat (x : RegIdx) (nn : Byte) :
    (wordXNN 0xF#4 x nn).toNat = 0xF000 + nn.toNat + 256 * x.val := by
  have hF : (0xF#4).toNat = 15 := rfl
  rw [wordXNN_toNat, hF]
  omega

/-! ### The bytes and registers of the block -/

/-- A byte outside the block is as before the store. -/
theorem readByte_storeRegs_outside (hr : s.i.toNat + x.val < 4096) {a : Nat}
    (ha : a < blockAddr s 0 ∨ blockAddr s x < a) : readByte (storeRegs s x).mem a = readByte s.mem a := by
  have hout : ¬ (s.i.toNat ≤ a ∧ a ≤ s.i.toNat + x.val) := by
    simp only [blockAddr, Fin.val_zero] at ha
    omega
  rw [readByte_storeRegs s x a hr, if_neg hout]

theorem reg_loadRegs_of_le (hk : k ≤ x) : (loadRegs s x).reg k = readByte s.mem (blockAddr s k) :=
  (reg_loadRegs s x k).trans (if_pos hk)

theorem reg_loadRegs_of_gt (hk : x < k) : (loadRegs s x).reg k = s.reg k :=
  (reg_loadRegs s x k).trans (if_neg (not_le_of_gt hk))

/-! ### Block store and block load (R104, R105) -/

/-- Settles O52: the last byte is in range and the stores are done, or it is not and only the fault is taken. -/
theorem storeBlockEffect : Obligations.StoreBlockEffect := by
  intro x s
  constructor
  · intro hr
    exact ⟨storeRegs s x, exec_storeBlock_inRange hr, fun _ => readByte_storeRegs_blockAddr hr,
      fun _ => readByte_storeRegs_outside hr, sameBut_storeRegs s x⟩
  · intro hr
    exact ⟨_, _, _, exec_storeBlock_outOfRange hr, rfl, wordXNN_familyF_toNat x 0x55#8,
      firstOutOfRange_toNat s.i, sameBut_takeFault s _ _ _⟩

/-- Settles O53: the last byte is in range and the loads are done, or it is not and only the fault is taken. -/
theorem loadBlockEffect : Obligations.LoadBlockEffect := by
  intro x s
  constructor
  · intro hr
    exact ⟨loadRegs s x, exec_loadBlock_inRange hr, fun _ => reg_loadRegs_of_le,
      fun _ => reg_loadRegs_of_gt, sameBut_loadRegs s x⟩
  · intro hr
    exact ⟨_, _, _, exec_loadBlock_outOfRange hr, rfl, wordXNN_familyF_toNat x 0x65#8,
      firstOutOfRange_toNat s.i, sameBut_takeFault s _ _ _⟩

/-- Settles O55: with the same I the load reads each register's byte where the store put it. -/
theorem loadAfterStoreRestoresRegisters : Obligations.LoadAfterStoreRestoresRegisters := by
  intro x s hr
  refine ⟨storeRegs s x, exec_storeBlock_inRange hr, fun u hi hmem => ?_⟩
  have hru : u.i.toNat + x.val < 4096 := by rwa [hi]
  refine ⟨loadRegs u x, exec_loadBlock_inRange hru, fun k hk => ?_, fun _ => reg_loadRegs_of_gt⟩
  have haddr : blockAddr u k = blockAddr s k := by rw [blockAddr, blockAddr, hi]
  rw [reg_loadRegs_of_le hk, hmem, haddr, readByte_storeRegs_blockAddr hr hk]

end Sys2Proof.Machine
end

section
/-! PROOFS. The execution loop (45_execution_loop.md R107 to R114): what a step answers, what it does around the decoded
instruction, what a fault leaves, and where the next fetch is. -/
namespace Sys2Proof.Machine

variable {i : Instr} {s t u : State}

/-! ### A step always answers (R112) -/

theorem step_answers (s : State) : ∃ t, step s = .next t := by
  cases hs : s.status with
  | faulted r => exact ⟨_, step_faulted hs⟩
  | running =>
    cases hf : fetch s with
    | none => exact ⟨_, step_fetch_fault hs hf⟩
    | some op =>
      obtain ⟨u, hu⟩ := exec_answers (decodeWord op) s
      exact ⟨_, step_exec hs hf hu⟩

theorem step_params (h : step s = .next t) : t.params = s.params := by
  rcases step_cases h with ⟨r, -, rfl⟩ | ⟨-, -, rfl⟩ | ⟨op, u, -, -, hx, hend⟩
  · rfl
  · rfl
  · obtain ⟨hparams, -, -⟩ := exec_own_fields hx
    rcases hend with ⟨r, -, rfl⟩ | ⟨-, rfl⟩
    · exact hparams
    · rw [atBoundary_params, State.setPc_params, hparams]

/-- Settles O12: the fetch faults or dispatch answers, and no case of a step writes the parameters. -/
theorem everyStepAnswersNext : Obligations.EveryStepAnswersNext := by
  intro s
  obtain ⟨t, h⟩ := step_answers s
  exact ⟨t, h, step_params h⟩

/-! ### A fault is precise (R113) -/

/-- A step that leaves a running block faulted took a fault and did nothing else, at the fetch or in dispatch. -/
theorem step_newly_faulted {r : FaultRecord} (hs : s.status = .running) (h : step s = .next t)
    (ht : t.status = .faulted r) : ∃ code op addr, t = s.takeFault code op addr := by
  rcases step_cases h with ⟨r', hs', -⟩ | ⟨-, -, rfl⟩ | ⟨op, u, -, -, hx, ⟨r', hu, rfl⟩ | ⟨hu, rfl⟩⟩
  · rw [hs] at hs'; cases hs'
  · exact ⟨_, _, _, rfl⟩
  · exact exec_faulted hx hs hu
  · rw [atBoundary_status, State.setPc_status, hu] at ht; cases ht

/-- Settles O14: taking a fault records the address in `pc` and writes nothing but the status. -/
theorem faultsArePrecise : Obligations.FaultsArePrecise := by
  intro s t r hs h ht
  obtain ⟨code, op, addr, rfl⟩ := step_newly_faulted hs h ht
  rw [State.takeFault_status] at ht
  cases ht
  exact ⟨rfl, rfl, sameBut_takeFault s code op addr⟩

/-! ### A step around its dispatch (R107, R110) -/

theorem atBoundary_dt_toNat (h : s.status = .running) :
    (atBoundary s).dt.toNat = s.dt.toNat - Config.ticksAt s.boundary := by
  rw [atBoundary_running h]; exact countdownBy_toNat _ _

theorem atBoundary_st_toNat (h : s.status = .running) :
    (atBoundary s).st.toNat = s.st.toNat - Config.ticksAt s.boundary := by
  rw [atBoundary_running h]; exact countdownBy_toNat _ _

theorem atBoundary_boundary (h : s.status = .running) : (atBoundary s).boundary = s.boundary + 1 := by
  rw [atBoundary_running h]

theorem atBoundary_loading (h : s.status = .running) : (atBoundary s).loading = .closed := by
  rw [atBoundary_running h]

/-- The advance and the boundary together change `pc` and what the boundary changes. -/
theorem sameBut_advance_atBoundary (u : State) (a : Word) :
    SameBut [.pc, .dt, .st, .boundary, .loading] u (atBoundary (u.setPc a)) :=
  ((sameBut_setPc u a).mono (by simp)).trans ((sameBut_atBoundary _).mono (by simp))

/-- Settles O8: the step is the dispatch, the advance and the boundary in turn, and the last two hold a faulted block. -/
theorem stepRunsDecodedInstruction : Obligations.StepRunsDecodedInstruction := by
  intro s u i hs hpc hi hx
  subst hi
  have hstep : step s = .next (atBoundary (advance u)) := step_exec hs (fetch_of_bytes hpc rfl rfl) hx
  constructor
  · intro r hu
    rw [hstep, advance_faulted hu, atBoundary_faulted hu]
  · intro hu
    have hadv : (u.setPc (twoOn u.pc)).status = .running := hu
    rw [advance_running hu] at hstep
    exact ⟨_, hstep, by rw [atBoundary_pc, State.setPc_pc, twoOn_toNat], atBoundary_dt_toNat hadv,
      atBoundary_st_toNat hadv, atBoundary_boundary hadv, atBoundary_loading hadv,
      sameBut_advance_atBoundary u _⟩

/-! ### The next fetch (R111, R114) -/

theorem exec_ret_of_running (h : exec .ret s = .next u) (hu : u.status = .running) :
    ∃ rest a, s.stack = rest ++ [a] ∧ u = s.dropStack.setPc a := by
  rcases List.eq_nil_or_concat' s.stack with hnil | ⟨rest, a, htop⟩
  · rw [exec_ret_of_empty hnil] at h; cases h; cases hu
  · rw [exec_ret_of_top htop] at h; cases h; exact ⟨rest, a, htop, rfl⟩

theorem exec_call_of_running {nnn : Addr12} (h : exec (.call nnn) s = .next u) (hu : u.status = .running) :
    u = (s.pushStack s.pc).setPc (zext16 nnn) := by
  by_cases hfull : s.params.stackDepth = some s.stack.length
  · rw [exec_call_of_full nnn hfull] at h; cases h; cases hu
  · rw [exec_call_of_room nnn hfull] at h; cases h; rfl

/-- A skip and the advance after it, from an address that was fetched from: neither wraps. -/
theorem skipIf_pc_add_two (c : Bool) (hpc : s.pc.toNat + 1 < 4096) :
    (skipIf c s).pc.toNat + 2 = if c then s.pc.toNat + 4 else s.pc.toNat + 2 := by
  rw [skipIf_pc_toNat, Nat.mod_eq_of_lt (by omega)]
  cases c <;> rfl

/-- Two on from where a dispatch that does not fault leaves `pc` is the table's entry for the instruction (R111). -/
theorem exec_pc_add_two (h : exec i s = .next u) (hu : u.status = .running) (hpc : s.pc.toNat + 1 < 4096) :
    u.pc.toNat + 2 = fetchAfter s i := by
  cases i with
  | jp nnn => cases h; exact congrArg (· + 2) (zext16_toNat nnn)
  | jpV0 nnn => cases h; exact congrArg (· + 2) (indexedTarget_toNat nnn _)
  | call nnn =>
    obtain rfl := exec_call_of_running h hu
    exact congrArg (· + 2) (zext16_toNat nnn)
  | ret =>
    obtain ⟨rest, a, htop, rfl⟩ := exec_ret_of_running h hu
    simp [fetchAfter, htop]
  | seImm | sneImm | seReg => cases h; simp [fetchAfter, skipIf_pc_add_two _ hpc]
  | _ =>
    have hkeep : u.pc = s.pc := exec_frame h .pc (by simp [execWrites])
    rw [hkeep]; rfl

/-- The dispatch inside a step that fetched a word and ran on. -/
theorem step_of_fetch_running {op : Word} (hf : fetch s = some op) (h : step s = .next t)
    (hs : s.status = .running) (ht : t.status = .running) :
    ∃ u, exec (decodeWord op) s = .next u ∧ u.status = .running ∧ t = atBoundary (u.setPc (twoOn u.pc)) := by
  rcases step_cases h with ⟨r, hs', -⟩ | ⟨-, hf', -⟩ | ⟨op', u, -, hf', hx, ⟨r, hu, rfl⟩ | ⟨hu, rfl⟩⟩
  · rw [hs] at hs'; cases hs'
  · rw [hf] at hf'; cases hf'
  · rw [hu] at ht; cases ht
  · rw [hf] at hf'; cases hf'; exact ⟨u, hx, hu, rfl⟩

/-- Settles O16: the advance adds two, modulo 65536, to what dispatch left in `pc`. -/
theorem nextFetchFollowsTable : Obligations.NextFetchFollowsTable := by
  intro s t op hs hf h ht
  obtain ⟨u, hx, hu, rfl⟩ := step_of_fetch_running hf h hs ht
  obtain ⟨hpc, -⟩ := fetch_some_iff.1 hf
  constructor
  · rw [atBoundary_pc, State.setPc_pc, twoOn_toNat, exec_pc_add_two hx hu hpc]
  · intro nnn hi
    rw [hi] at hx
    obtain rfl := exec_call_of_running hx hu
    rw [atBoundary_stack]; rfl

/-- Settles O17: dispatch leaves `pc` at most 0x10FE (`exec_pc_le`), so the advance does not wrap. -/
theorem nextFetchNeverWraps : Obligations.NextFetchNeverWraps := by
  intro s t op hinv hs hf h ht
  obtain ⟨u, hx, hu, rfl⟩ := step_of_fetch_running hf h hs ht
  obtain ⟨hpc, -⟩ := fetch_some_iff.1 hf
  have hle : u.pc.toNat ≤ 0x10FE := exec_pc_le hx (by omega) hinv.entries
  have hnext : (atBoundary (u.setPc (twoOn u.pc))).pc.toNat = u.pc.toNat + 2 := by
    rw [atBoundary_pc, State.setPc_pc, twoOn_toNat, Nat.mod_eq_of_lt (by omega)]
  exact ⟨hnext.trans (exec_pc_add_two hx hu hpc), by omega⟩

end Sys2Proof.Machine
end

section
/-! PROOFS. The reference sequencer (45_execution_loop.md R116): its phases one by one, the block transfer one access a
phase, and the five phases that make a step. -/
namespace Sys2Proof.Machine

variable {inp : SequencerInputs} {q : Sequencer} {s t u : State} {op : Word} {x : RegIdx}
variable {access : State → RegIdx → State}

/-! ### The phases with reset released -/

theorem phaseStep_reset (hr : inp.reset = .released) (hq : q.phase = .reset) :
    phaseStep inp q = { q with phase := .fetchHi } := by
  rw [phaseStep_released hr, releasedPhase, hq]

theorem phaseStep_halt (hr : inp.reset = .released) (hq : q.phase = .halt) : phaseStep inp q = q := by
  rw [phaseStep_released hr, releasedPhase, hq]

theorem phaseStep_fetchHi (hr : inp.reset = .released) (hq : q.phase = .fetchHi)
    (hrange : q.core.pc.toNat + 1 < 4096) : phaseStep inp q = { q with
      phase := .fetchLo
      ir := wordOfBytes (readByte q.core.mem q.core.pc.toNat) (q.ir.extractLsb' 0 8) } := by
  rw [phaseStep_released hr, releasedPhase, hq]
  exact if_pos hrange

theorem phaseStep_fetchHi_outOfRange (hr : inp.reset = .released) (hq : q.phase = .fetchHi)
    (hf : fetch q.core = none) : phaseStep inp q = { q with phase := .halt, core := fetchFault q.core } := by
  have hrange : ¬ q.core.pc.toNat + 1 < memSize := Nat.not_lt.2 (fetch_none_iff.1 hf)
  rw [phaseStep_released hr, releasedPhase, hq]
  exact if_neg hrange

theorem phaseStep_fetchLo (hr : inp.reset = .released) (hq : q.phase = .fetchLo) :
    phaseStep inp q = { q with
      phase := .decode
      ir := wordOfBytes (q.ir.extractLsb' 8 8) (readByte q.core.mem (q.core.pc.toNat + 1)) } := by
  rw [phaseStep_released hr, releasedPhase, hq]

theorem phaseStep_decode (hr : inp.reset = .released) (hq : q.phase = .decode) :
    phaseStep inp q = { q with phase := .exec, micro := none } := by
  rw [phaseStep_released hr, releasedPhase, hq]

theorem phaseStep_advance (hr : inp.reset = .released) (hq : q.phase = .advance) :
    phaseStep inp q = { q with phase := .fetchHi, core := atBoundary (advance q.core) } := by
  rw [phaseStep_released hr, releasedPhase, hq]

theorem phaseStep_waits (hr : inp.reset = .released) (hq : q.phase = .exec)
    (hw : execWaits inp q.core (decodeWord q.ir) = true) : phaseStep inp q = q := by
  rw [phaseStep_released hr, releasedPhase_exec hq, if_pos hw]

theorem phaseStep_exec (hr : inp.reset = .released) (hq : q.phase = .exec)
    (hw : execWaits inp q.core (decodeWord q.ir) = false) : phaseStep inp q = execPhase q := by
  rw [phaseStep_released hr, releasedPhase_exec hq, hw, if_neg Bool.false_ne_true]

/-! ### EXEC, by the kind of instruction -/

/-- The two instructions whose EXEC takes one phase an access. -/
def isBlockTransfer : Instr → Bool
  | .storeBlock _ | .loadBlock _ => true
  | _ => false

theorem execPhase_effect (hb : isBlockTransfer (decodeWord q.ir) = false) :
    execPhase q = effectPhase (decodeWord q.ir) q := by
  rw [execPhase]
  cases hi : decodeWord q.ir with
  | storeBlock | loadBlock => rw [hi] at hb; cases hb
  | _ => rfl

theorem execPhase_storeBlock (hi : decodeWord q.ir = .storeBlock x) : execPhase q = blockPhase storeReg x q := by
  rw [execPhase, hi]

theorem execPhase_loadBlock (hi : decodeWord q.ir = .loadBlock x) : execPhase q = blockPhase loadReg x q := by
  rw [execPhase, hi]

theorem exec_storeBlock_of_running (h : exec (.storeBlock x) s = .next u) (hu : u.status = .running) :
    s.i.toNat + x.val < 4096 ∧ u = storeRegs s x := by
  by_cases hr : s.i.toNat + x.val < 4096
  · rw [exec_storeBlock_inRange hr] at h; cases h; exact ⟨hr, rfl⟩
  · rw [exec_storeBlock_outOfRange (Nat.not_lt.1 hr)] at h; cases h; cases hu

theorem exec_loadBlock_of_running (h : exec (.loadBlock x) s = .next u) (hu : u.status = .running) :
    s.i.toNat + x.val < 4096 ∧ u = loadRegs s x := by
  by_cases hr : s.i.toNat + x.val < 4096
  · rw [exec_loadBlock_inRange hr] at h; cases h; exact ⟨hr, rfl⟩
  · rw [exec_loadBlock_outOfRange (Nat.not_lt.1 hr)] at h; cases h; cases hu

theorem blockPhase_outOfRange (hm : q.micro = none) (hr : 4096 ≤ q.core.i.toNat + x.val) :
    blockPhase access x q = { q with
      phase := .halt
      core := q.core.takeFault .dataRange (some q.ir) (some (firstOutOfRange q.core.i)) } := by
  rw [blockPhase, hm]
  exact if_neg (not_blockInRange hr)

theorem blockPhase_inRange (hm : q.micro = none) (hr : q.core.i.toNat + x.val < 4096) :
    blockPhase access x q = { q with micro := some 0 } := by
  rw [blockPhase, hm]
  exact if_pos (blockInRange_iff.2 hr)

theorem blockPhase_last (hm : q.micro = some x) :
    blockPhase access x q = { q with phase := .advance, micro := none, core := access q.core x } := by
  rw [blockPhase, hm]
  exact if_pos rfl

theorem blockPhase_access {k : RegIdx} (hm : q.micro = some k) (hk : k ≠ x) :
    blockPhase access x q = { q with micro := some (k + 1), core := access q.core k } := by
  rw [blockPhase, hm]
  exact if_neg hk

theorem execPhase_next (hb : isBlockTransfer (decodeWord q.ir) = false)
    (hx : exec (decodeWord q.ir) q.core = .next t) (ht : t.status = .running) :
    execPhase q = { q with phase := .advance, core := t } := by
  rw [execPhase_effect hb, effectPhase_next hx ht]

/-- A faulting EXEC goes to HALT with the state dispatch gives; the opcode register holds the opcode of the record. -/
theorem execPhase_fault {r : FaultRecord} (hm : q.micro = none) (hs : q.core.status = .running)
    (hx : exec (decodeWord q.ir) q.core = .next t) (ht : t.status = .faulted r) :
    execPhase q = { q with phase := .halt, core := t } := by
  rcases exec_status_cases hx with hst | ⟨hi, -, -⟩ | ⟨nnn, hi, -, -⟩ | ⟨x, hi, hr, rfl⟩
  · rw [hst, hs] at ht; cases ht
  · rw [execPhase_effect (by rw [hi]; rfl), effectPhase_fault hx ht]
  · rw [execPhase_effect (by rw [hi]; rfl), effectPhase_fault hx ht]
  · have hop : encode (decodeWord q.ir) = q.ir :=
      encode_decodeWord_of_ne_seReg rfl fun y z he => by rcases hi with hi | hi <;> rw [he] at hi <;> cases hi
    rw [hop]
    rcases hi with hi | hi
    · rw [execPhase_storeBlock hi, blockPhase_outOfRange hm hr]
    · rw [execPhase_loadBlock hi, blockPhase_outOfRange hm hr]

/-- The instructions that EXEC may wait on do not fault. -/
theorem execWaits_of_fault {r : FaultRecord} {i : Instr} (hs : s.status = .running) (hx : exec i s = .next t)
    (ht : t.status = .faulted r) : execWaits inp s i = false := by
  cases i with
  | rnd | cls => cases hx; cases hs.symm.trans ht
  | _ => rfl

/-! ### Runs of phases -/

theorem highByte_wordOfBytes (hi lo : Byte) : (wordOfBytes hi lo).extractLsb' 8 8 = hi := slice_high hi lo

theorem phaseRun_add (m n : Nat) (q : Sequencer) : phaseRun (m + n) q = phaseRun n (phaseRun m q) := by
  induction m generalizing q with
  | zero => rw [Nat.zero_add]; rfl
  | succ m ih => rw [Nat.succ_add]; exact ih _

/-- FETCH_HI, FETCH_LO and DECODE: the two bytes of the opcode, and a fresh micro-counter. -/
theorem phaseRun_fetch (ir : Word) (micro : Option RegIdx) (hf : fetch s = some op) :
    phaseRun 3 ⟨.fetchHi, ir, micro, s⟩ = ⟨.exec, op, none, s⟩ := by
  obtain ⟨hrange, rfl⟩ := fetch_some_iff.1 hf
  rw [phaseRun, phaseStep_fetchHi rfl rfl hrange, phaseRun, phaseStep_fetchLo rfl rfl, phaseRun,
    phaseStep_decode rfl rfl, phaseRun, highByte_wordOfBytes]

/-- The registers below `k` in ascending order: those a block transfer is done with when its micro-counter is `k`. -/
def regsBelow (k : RegIdx) : List RegIdx := (List.finRange 16).filter (fun j => j < k)

theorem regsBelow_zero : regsBelow 0 = [] := by decide

theorem blockRegs_eq_regsBelow : ∀ k, blockRegs k = regsBelow k ++ [k] := by decide

theorem regsBelow_succ : ∀ k : RegIdx, k.val < 15 → regsBelow (k + 1) = blockRegs k := by decide

/-- One more access takes the registers below `k` to the registers up to `k`. -/
theorem access_foldl_regsBelow (access : State → RegIdx → State) (s : State) (k : RegIdx) :
    access ((regsBelow k).foldl access s) k = (blockRegs k).foldl access s := by
  rw [blockRegs_eq_regsBelow, List.foldl_append, List.foldl_cons, List.foldl_nil]

/-- The accesses of a block transfer, one a phase, from micro-counter `k` to the last, `x`. -/
theorem phaseRun_blockAccesses (hb : ∀ q : Sequencer, q.ir = op → execPhase q = blockPhase access x q) (n : Nat) :
    ∀ k : RegIdx, k.val + n = x.val →
      phaseRun (n + 1) ⟨.exec, op, some k, (regsBelow k).foldl access s⟩ =
        ⟨.advance, op, none, (blockRegs x).foldl access s⟩ := by
  induction n with
  | zero =>
    intro k hk
    obtain rfl : k = x := Fin.ext hk
    rw [phaseRun, phaseStep_answered_exec rfl, hb _ rfl, blockPhase_last rfl, ← access_foldl_regsBelow access s k]
    rfl
  | succ n ih =>
    intro k hk
    have hx := x.isLt
    have hkx : k ≠ x := fun e => by rw [e] at hk; omega
    have hnext : (k + 1).val = k.val + 1 := Fin.val_add_one_of_lt' (by omega)
    rw [phaseRun, phaseStep_answered_exec rfl, hb _ rfl, blockPhase_access rfl hkx]
    dsimp only
    rw [access_foldl_regsBelow access s k, ← regsBelow_succ k (by omega)]
    exact ih (k + 1) (by omega)

/-- EXEC of a block transfer in range: the range check, then the x + 1 accesses. -/
theorem phaseRun_blockTransfer (hb : ∀ q : Sequencer, q.ir = op → execPhase q = blockPhase access x q)
    (hr : s.i.toNat + x.val < 4096) :
    phaseRun (x.val + 1 + 1) ⟨.exec, op, none, s⟩ = ⟨.advance, op, none, (blockRegs x).foldl access s⟩ := by
  have haccesses := phaseRun_blockAccesses (s := s) hb x.val 0 (by rw [Fin.val_zero, Nat.zero_add])
  rw [regsBelow_zero] at haccesses
  rw [phaseRun, phaseStep_answered_exec rfl, hb _ rfl, blockPhase_inRange rfl hr]
  exact haccesses

/-- EXEC of an instruction that does not fault, in the phases R116 counts for it beside the fetch and the advance. -/
theorem phaseRun_exec (hx : exec (decodeWord op) s = .next u) (hu : u.status = .running) :
    ∃ n, phaseCount (decodeWord op) = 3 + (n + 1) ∧
      phaseRun n ⟨.exec, op, none, s⟩ = ⟨.advance, op, none, u⟩ := by
  have heffect (hb : isBlockTransfer (decodeWord op) = false) :
      phaseRun 1 ⟨.exec, op, none, s⟩ = ⟨.advance, op, none, u⟩ := by
    rw [phaseRun, phaseStep_answered_exec rfl, execPhase_next (q := ⟨.exec, op, none, s⟩) hb hx hu, phaseRun]
  cases hi : decodeWord op with
  | storeBlock x =>
    rw [hi] at hx
    obtain ⟨hr, rfl⟩ := exec_storeBlock_of_running hx hu
    exact ⟨x.val + 1 + 1, by rw [phaseCount]; omega,
      phaseRun_blockTransfer (fun q hq => execPhase_storeBlock (hq ▸ hi)) hr⟩
  | loadBlock x =>
    rw [hi] at hx
    obtain ⟨hr, rfl⟩ := exec_loadBlock_of_running hx hu
    exact ⟨x.val + 1 + 1, by rw [phaseCount]; omega,
      phaseRun_blockTransfer (fun q hq => execPhase_loadBlock (hq ▸ hi)) hr⟩
  | _ => exact ⟨1, rfl, heffect (by rw [hi]; rfl)⟩

/-- Settles O18: the fetch, EXEC and the advance are the parts of a step, and where a part faults the sequencer halts. -/
theorem sequencerRefinesStep : Obligations.SequencerRefinesStep := by
  intro s t ir micro hs h
  rcases step_cases h with ⟨r, hs', -⟩ | ⟨-, hf, rfl⟩ | ⟨op, u, -, hf, hx, ⟨r, hu, rfl⟩ | ⟨hu, rfl⟩⟩
  · rw [hs] at hs'; cases hs'
  · have hrun : phaseRun 1 ⟨.fetchHi, ir, micro, s⟩ = ⟨.halt, ir, micro, fetchFault s⟩ := by
      rw [phaseRun, phaseStep_fetchHi_outOfRange rfl rfl hf, phaseRun]
    exact ⟨nofun, fun _ _ => ⟨1, by rw [hrun], by rw [hrun]⟩⟩
  · have hrun : phaseRun (3 + 1) ⟨.fetchHi, ir, micro, s⟩ = ⟨.halt, op, none, t⟩ := by
      rw [phaseRun_add, phaseRun_fetch ir micro hf, phaseRun, phaseStep_answered_exec rfl,
        execPhase_fault (q := ⟨.exec, op, none, s⟩) rfl hs hx hu, phaseRun]
    exact ⟨fun ht => (nomatch hu.symm.trans ht), fun _ _ => ⟨3 + 1, by rw [hrun], by rw [hrun]⟩⟩
  · obtain ⟨n, hcount, hexec⟩ := phaseRun_exec hx hu
    have hrun : phaseRun (phaseCount (decodeWord op)) ⟨.fetchHi, ir, micro, s⟩ =
        ⟨.fetchHi, op, none, atBoundary (u.setPc (twoOn u.pc))⟩ := by
      rw [hcount, phaseRun_add, phaseRun_fetch ir micro hf, phaseRun_add, hexec, phaseRun,
        phaseStep_advance rfl rfl, advance_running hu, phaseRun]
    refine ⟨fun _ => ⟨op, hf, by rw [hrun], by rw [hrun]⟩, fun r ht => ?_⟩
    rw [status_after_advance hu] at ht; cases ht

/-! ### Reset, HALT and the waits -/

/-- Settles O57, clause by clause: each phase has its law, and `releasedPhase_cases` says what enters RESET and HALT. -/
theorem sequencerResetAndHalt : Obligations.SequencerResetAndHalt := by
  intro inp q
  refine ⟨fun present ha => ?asserted, fun hr => ⟨?leaves, ?notReset, ?holds, ?fetchFault, ?execFault, ?enters⟩,
    fun image hq => sequencerLoad_outside image hq⟩
  case asserted =>
    rw [phaseStep_asserted ha]
    exact ⟨fun hq => by rw [resetPhase_enters present hq]; exact ⟨rfl, rfl⟩, fun hq => resetPhase_holds present hq⟩
  case leaves =>
    intro hq
    rw [phaseStep_reset hr hq]
    exact ⟨rfl, rfl⟩
  case notReset =>
    rw [phaseStep_released hr]
    rcases releasedPhase_cases with ⟨hq, hhold⟩ | ⟨-, hhalt, -⟩ | ⟨-, hne⟩
    · rw [hhold, hq]; nofun
    · rw [hhalt]; nofun
    · exact hne
  case holds => exact phaseStep_halt hr
  case fetchFault =>
    intro hq hf
    rw [phaseStep_fetchHi_outOfRange hr hq hf]
    exact ⟨rfl, rfl⟩
  case execFault =>
    intro t r hq hm hs hx ht
    rw [phaseStep_exec hr hq (execWaits_of_fault hs hx ht), execPhase_fault hm hs hx ht]
    exact ⟨rfl, rfl⟩
  case enters =>
    intro hq hhalt
    rw [phaseStep_released hr] at hhalt ⊢
    rcases releasedPhase_cases with ⟨hq', -⟩ | ⟨hfrom, -, hfault⟩ | ⟨hne, -⟩
    · exact absurd hq' hq
    · exact ⟨hfrom, hfault⟩
    · exact absurd hhalt hne

/-- EXEC of an instruction other than a block transfer, once it does not wait. -/
theorem phaseStep_effect {i : Instr} (hr : inp.reset = .released) (hq : q.phase = .exec) (hi : decodeWord q.ir = i)
    (hb : isBlockTransfer i = false) (hw : execWaits inp q.core i = false) (hx : exec i q.core = .next t)
    (ht : t.status = .running) : (phaseStep inp q).phase = .advance ∧ exec i q.core = .next (phaseStep inp q).core := by
  subst hi
  rw [phaseStep_exec hr hq hw, execPhase_next hb hx ht]
  exact ⟨rfl, hx⟩

/-- Settles O59: EXEC waits for exactly these two answers, and neither instruction faults. -/
theorem sequencerWaits : Obligations.SequencerWaits := by
  intro inp q hr hq hs
  refine ⟨fun x nn hi => ⟨fun hv => ?rndWaits, fun hv => ?rndDone⟩,
    fun hi => ⟨fun hd hc => ?clsWaits, fun hd => ?clsDone⟩⟩
  case rndWaits => exact phaseStep_waits hr hq (by rw [hi, execWaits, hv]; rfl)
  case rndDone => exact phaseStep_effect hr hq hi rfl (by rw [execWaits, hv]; rfl) rfl hs
  case clsWaits => exact phaseStep_waits hr hq (by rw [hi, execWaits, hd, hc]; rfl)
  case clsDone =>
    have hw : execWaits inp q.core .cls = false := by
      rcases hd with hd | hc
      · rw [execWaits, hd, Bool.false_and]
      · rw [execWaits, hc, Bool.not_true, Bool.and_false]
    exact phaseStep_effect hr hq hi rfl hw rfl hs

/-! ### The boot -/

/-- What the boot needs of a reset state, from construction or from the reset input. -/
structure ReadyToLoad (s : State) : Prop where
  pc : s.pc = 0x0200#16
  status : s.status = .running
  mem : s.mem = []
  loading : s.loading = .accepting

theorem readyToLoad_resetWith (p : Params) : ReadyToLoad (State.resetWith p) := ⟨rfl, rfl, rfl, rfl⟩

theorem readyToLoad_hostReset (present : Bool) (s : State) : ReadyToLoad (hostReset present s) := ⟨rfl, rfl, rfl, rfl⟩

/-- A load of an image that fits, while the window is open. -/
theorem loadImage_accepts {image : List Byte} (hl : s.loading = .accepting) (hs : s.status = .running)
    (hfit : image.length ≤ 3584) :
    loadImage image s = .next { s with mem := writeBytes s.mem loadOrigin image, loading := .closed } := by
  rw [loadImage, hl, hs]
  exact if_neg (Nat.not_lt.2 hfit)

/-- An image written into empty memory (70_reset_and_hazards.md R138). -/
theorem readByte_loaded {image : List Byte} (hfit : image.length ≤ 3584) (a : Nat) :
    readByte (writeBytes [] loadOrigin image) a = if 0x200 ≤ a then image.getD (a - 0x200) 0x00#8 else 0x00#8 := by
  have hrange : loadOrigin + image.length ≤ memSize := by simp only [loadOrigin, memSize]; omega
  rw [readByte_writeBytes _ _ _ _ hrange]
  by_cases hlow : 0x200 ≤ a
  · by_cases hhigh : a < 0x200 + image.length
    · rw [if_pos ⟨hlow, hhigh⟩, if_pos hlow]; rfl
    · rw [if_neg fun h => hhigh h.2, if_pos hlow, List.getD_eq_default _ _ (by omega)]; rfl
  · rw [if_neg fun h => hlow h.1, if_neg hlow]; rfl

/-- Where reset is asserted the sequencer is in RESET with a state that is ready to load. -/
theorem phaseStep_asserted_ready {present : Bool} (ha : inp.reset = .asserted present)
    (hq : q.phase = .reset → ReadyToLoad q.core) :
    (phaseStep inp q).phase = .reset ∧ ReadyToLoad (phaseStep inp q).core := by
  rw [phaseStep_asserted ha]
  by_cases hreset : q.phase = .reset
  · rw [resetPhase_holds present hreset]; exact ⟨hreset, hq hreset⟩
  · rw [resetPhase_enters present hreset]; exact ⟨rfl, readyToLoad_hostReset present q.core⟩

/-- What is loaded in RESET is held while the line stays asserted, and release goes on to the fetch with it. -/
theorem sequencerLoad_held_released {held off : SequencerInputs} {again : Bool} {image : List Byte}
    (hheld : held.reset = .asserted again) (hoff : off.reset = .released) (hq : q.phase = .reset)
    (hload : loadImage image q.core = .next t) :
    ∃ u, sequencerLoad image q = .next u ∧ u.phase = .reset ∧
      phaseStep off (phaseStep held u) = { q with phase := .fetchHi, core := t } := by
  have hhold : phaseStep held { q with core := t } = { q with core := t } :=
    (phaseStep_asserted hheld).trans (resetPhase_holds again hq)
  refine ⟨_, sequencerLoad_next hq hload, hq, ?_⟩
  rw [hhold]
  exact phaseStep_reset hoff hq

/-- Settles O58: RESET is entered or held, the load fits, a held line holds what was loaded, and release goes on with it. -/
theorem sequencerBoots : Obligations.SequencerBoots := by
  intro q on held off present again image hq hon hheld hoff hfit
  have hready : q.phase = .reset → ReadyToLoad q.core := fun h => by
    rcases hq h with ⟨p, hp⟩ | ⟨d, u, hu⟩
    · rw [hp]; exact readyToLoad_resetWith p
    · rw [hu]; exact readyToLoad_hostReset d u
  have hpresent (hne : q.phase ≠ .reset) : (phaseStep on q).core.params.displayPresent = present := by
    rw [phaseStep_asserted hon, resetPhase_enters present hne]; rfl
  have hparams (he : q.phase = .reset) : (phaseStep on q).core.params = q.core.params := by
    rw [phaseStep_asserted hon, resetPhase_holds present he]
  obtain ⟨hphase, hpc, hs, hmem, hl⟩ := phaseStep_asserted_ready hon hready
  generalize phaseStep on q = p at *
  obtain ⟨u, hu, hreset, hfetch⟩ :=
    sequencerLoad_held_released hheld hoff hphase (loadImage_accepts hl hs hfit)
  refine ⟨u, hu, hreset, ?_⟩
  rw [hfetch]
  refine ⟨rfl, hpc, hs, hpresent, hparams, fun a => ?_⟩
  rw [hmem]; exact readByte_loaded hfit a

end Sys2Proof.Machine
end

section
/-! PROOFS. The faults and the timers (60_exceptions.md R117, R119, R123, R127): the causes of a fault with the record
each leaves, and the ticks of a boundary one by one. -/
namespace Sys2Proof.Machine

variable {s u : State}

/-! ### Faults (R117, R119, R123) -/

/-- A fetch out of range is the whole of its step: the fault, with the first missing byte address. -/
theorem step_of_pc_outOfRange (hs : s.status = .running) (hpc : 0xFFF ≤ s.pc.toNat) :
    step s = .next (s.takeFault .fetchRange none (some (firstOutOfRange s.pc))) :=
  step_fetch_fault hs (fetch_none_iff.2 (by omega))

/-- Settles O10: the fetch needs a byte at 4096 or above, so the step takes its fault (`step_of_pc_outOfRange`). -/
theorem fetchRangeFaults : Obligations.FetchRangeFaults :=
  fun s hs hpc => ⟨_, _, step_of_pc_outOfRange hs hpc, rfl, firstOutOfRange_toNat s.pc, sameBut_takeFault s _ _ _⟩

/-- The opcode a faulting dispatch records is the word fetched: the one family whose encoding loses a field, 5xyn, does
not fault. -/
theorem encode_decodeWord_of_faulted {op : Word} {r : FaultRecord} (hs : s.status = .running)
    (hx : exec (decodeWord op) s = .next u) (hu : u.status = .faulted r) : encode (decodeWord op) = op := by
  refine encode_decodeWord_of_ne_seReg rfl fun x y he => ?_
  have hkeep : u.status = s.status := exec_frame hx .status (by simp [he, execWrites])
  rw [hkeep, hs] at hu
  cases hu

/-- Settles O15: the fetch faults, or dispatch does by one of the cases of `exec_status_cases`; a step that runs on over
the boundary is not faulted. -/
theorem faultsHaveFourCauses : Obligations.FaultsHaveFourCauses := by
  intro s t r hs h ht
  rcases step_cases h with ⟨_, hs', -⟩ | ⟨-, hf, rfl⟩ | ⟨op, u, -, hf, hx, ⟨_, -, rfl⟩ | ⟨hu, rfl⟩⟩
  · rw [hs] at hs'; cases hs'
  · have hpc : 4096 ≤ s.pc.toNat + 1 := fetch_none_iff.1 hf
    cases ht
    exact .inl ⟨by omega, hf, rfl⟩
  · refine .inr ⟨op, hf, ?_⟩
    have hop : encode (decodeWord op) = op := encode_decodeWord_of_faulted hs hx ht
    rcases exec_status_cases hx with hkeep | ⟨hi, hempty, rfl⟩ | ⟨nnn, hi, hfull, rfl⟩ | ⟨x, hi, hr, rfl⟩
    · rw [hkeep, hs] at ht; cases ht
    · rw [hi] at hop
      cases ht
      exact .inl ⟨hi, hempty, by rw [← hop]; rfl⟩
    · cases ht
      exact .inr (.inl ⟨nnn, hi, hfull, by rw [hop]⟩)
    · cases ht
      exact .inr (.inr ⟨x, hi, hr, by rw [hop]⟩)
  · rw [atBoundary_status, State.setPc_status, hu] at ht; cases ht

/-! ### Ticks (R127) -/

theorem sameBut_tick (s : State) : SameBut [.dt, .st] s (tick s) := by
  rcases tick_eq_self_or_timers s with he | he <;> rw [he]
  · exact .refl _ _
  · exact ((sameBut_setDT s _).mono (by simp)).trans ((sameBut_setST _ _).mono (by simp))

/-- Settles O28: a running block counts both timers down, a faulted one is left. -/
theorem tickCountsDown : Obligations.TickCountsDown := by
  intro s
  refine ⟨fun hs => ?_, fun _ hs => tick_faulted hs, sameBut_tick s⟩
  rw [tick_running hs]
  exact ⟨countdown_toNat s.dt, countdown_toNat s.st⟩

theorem applyTicks_zero (s : State) : applyTicks 0 s = s := by
  cases hs : s.status with
  | faulted r => exact applyTicks_faulted hs 0
  | running => rw [applyTicks_running 0 hs, countdownBy_zero, countdownBy_zero]; rfl

/-- One of the ticks taken first. -/
theorem applyTicks_succ (n : Nat) (s : State) : applyTicks (n + 1) s = applyTicks n (tick s) := by
  cases hs : s.status with
  | faulted r => rw [tick_faulted hs, applyTicks_faulted hs, applyTicks_faulted hs]
  | running =>
    have hticked : ((s.setDT (countdown s.dt)).setST (countdown s.st)).status = .running := hs
    rw [tick_running hs, applyTicks_running _ hs, applyTicks_running _ hticked, countdownBy_succ, countdownBy_succ]
    rfl

/-- Settles O29, by induction on the number of ticks. -/
theorem ticksAtBoundaryCompose : Obligations.TicksAtBoundaryCompose := by
  intro n
  induction n with
  | zero => exact applyTicks_zero
  | succ n ih =>
    intro s
    rw [applyTicks_succ, ih, Function.iterate_succ_apply]

end Sys2Proof.Machine
end

section
/-! PROOFS. Reset, the host's moves and the loader (70_reset_and_hazards.md R137 to R140, R148): what a host does at a
boundary keeps the invariants, and what a load writes and when it is turned away. -/
namespace Sys2Proof.Machine

variable {image : List Byte} {s t : State}

/-! ### The host's moves (R148) -/

/-- Settles O25: a tick writes only the timers, a reset makes the reset state, and a load writes memory by `writeBytes`. -/
theorem hostMovesKeepRunInvariant : Obligations.HostMovesKeepRunInvariant :=
  fun _ _ hm => ⟨fun h => h.hostMove hm, fun h => h.hostMove hm⟩

/-! ### A load that succeeds (R137, R138) -/

/-- What a load that succeeds writes: memory and the load window. -/
theorem sameBut_mem_loading (s : State) (m : Memory) (w : LoadWindow) :
    SameBut [.mem, .loading] s { s with mem := m, loading := w } := by
  intro p hp
  cases p with
  | mem => exact absurd hp (by decide)
  | loading => exact absurd hp (by decide)
  | regs => exact fun _ => rfl
  | _ => rfl

theorem loadOrigin_add_length_le (hfit : image.length ≤ 3584) : loadOrigin + image.length ≤ memSize := by
  simp only [loadOrigin, memSize]; omega

theorem readByte_image (m : Memory) (hfit : image.length ≤ 3584) {k : Nat} (hk : k < image.length) :
    readByte (writeBytes m loadOrigin image) (0x200 + k) = image[k] := by
  have hin : loadOrigin ≤ 0x200 + k ∧ 0x200 + k < loadOrigin + image.length := by
    simp only [loadOrigin]; omega
  have hoffset : 0x200 + k - loadOrigin = k := Nat.add_sub_cancel_left 0x200 k
  rw [readByte_writeBytes _ _ _ _ (loadOrigin_add_length_le hfit), if_pos hin, hoffset,
    List.getD_eq_getElem _ _ hk]

theorem readByte_outside_image (m : Memory) (hfit : image.length ≤ 3584) {a : Nat}
    (ha : a < 0x200 ∨ 0x200 + image.length ≤ a) : readByte (writeBytes m loadOrigin image) a = readByte m a := by
  have hout : ¬ (loadOrigin ≤ a ∧ a < loadOrigin + image.length) := by
    simp only [loadOrigin]; omega
  rw [readByte_writeBytes _ _ _ _ (loadOrigin_add_length_le hfit), if_neg hout]

/-- Settles O31: the load is `writeBytes` at 0x200, which puts each byte of the image in place and leaves the rest. -/
theorem loaderStoresImage : Obligations.LoaderStoresImage := by
  intro image s hl hs hfit
  exact ⟨_, loadImage_accepts hl hs hfit, fun _ hk => readByte_image s.mem hfit hk,
    fun _ ha => readByte_outside_image s.mem hfit ha, rfl, sameBut_mem_loading s _ _⟩

/-! ### A load that is turned away (R137, R139, R140) -/

theorem loadImage_tooLong (hl : s.loading = .accepting) (hs : s.status = .running) (hlong : 3584 < image.length) :
    loadImage image s = .fault (.loaderCapacity image.length) := by
  rw [loadImage, hl, hs]
  exact if_pos hlong

theorem loadImage_closed (hl : s.loading = .closed) (image : List Byte) :
    loadImage image s = .refused .loadOutsideWindow := by
  rw [loadImage, hl]

/-- A step leaves no state that accepts a load: it runs on over the boundary, which shuts the window, or ends faulted. -/
theorem step_closed_or_faulted (h : step s = .next t) : t.loading = .closed ∨ ∃ r, t.status = .faulted r := by
  rcases step_cases h with ⟨r, hs, rfl⟩ | ⟨-, -, rfl⟩ | ⟨_, u, -, -, -, ⟨r, hu, rfl⟩ | ⟨hu, rfl⟩⟩
  · exact .inr ⟨r, hs⟩
  · exact .inr ⟨_, rfl⟩
  · exact .inr ⟨r, hu⟩
  · exact .inl (atBoundary_loading (s := u.setPc _) hu)

/-- Settles O32: the size check comes first in an open window, and a load, a cycle and a fault each shut the loader out. -/
theorem loaderTurnsAway : Obligations.LoaderTurnsAway := by
  refine ⟨fun _ _ => loadImage_tooLong, fun image again s t h => ?_, fun image s t h => ?_⟩
  · obtain ⟨-, -, -, rfl⟩ := loadImage_next h
    exact loadImage_closed rfl again
  · rcases step_closed_or_faulted h with hl | ⟨r, hr⟩
    · exact loadImage_closed hl image
    · exact loadImage_faulted hr image

end Sys2Proof.Machine
end
